-- ==== Sys2Proof/Word.lean ====
section
/-! DEFINITION. The widths of the block's words (00_scope R5, R6): bytes, command words, coefficient registers,
raw codes, binary64 patterns, response lanes. -/

namespace Sys2Proof

/-- `U8`: a byte of the register bus, a shadow register, a command's operand. -/
abbrev Byte := BitVec 8

/-- A command word `cmd` (30_encoding R50), and a word of the trimming block (40_trimming R71). -/
abbrev Word16 := BitVec 16

/-- A coefficient register: `COEF_W` = 17 bits, two's complement (10_state R12, decision D4). -/
abbrev Coef := BitVec 17

/-- A raw ADC code, `U20` (10_state R21). -/
abbrev Raw20 := BitVec 20

/-- The 64-bit pattern of an IEEE 754 binary64 value, the `FLOAT` format (00_scope R5). -/
abbrev F64 := BitVec 64

/-- A data lane of the response port (30_encoding R53). -/
abbrev Lane := BitVec 64

end Sys2Proof
end

