-- ==== Sys2Proof/Syntax.lean ====
section
/-! DEFINITION. The 18 commands (30_encoding R51), one constructor for each row of spec/opcode_table.json. -/

namespace Sys2Proof

/-- A decoded command. Format N has no operand; format V carries the byte `v` and format K the index `k`
(30_encoding R50, R66). -/
inductive Instr where
  /-- INIT (43_driver R121). -/
  | init
  /-- UPDATE (43_driver R122). -/
  | update
  /-- RESET (43_driver R125): the command that resets the device, not the block. -/
  | reset
  /-- SET_MODE v (41_configuration R84). -/
  | setMode (v : Byte)
  /-- SET_OSRS_T v (41_configuration R85). -/
  | setOsrsT (v : Byte)
  /-- SET_OSRS_P v (41_configuration R86). -/
  | setOsrsP (v : Byte)
  /-- SET_STANDBY v (41_configuration R87). -/
  | setStandby (v : Byte)
  /-- SET_FILTER v (41_configuration R88). -/
  | setFilter (v : Byte)
  /-- GET_MODE (41_configuration R89). -/
  | getMode
  /-- GET_OSRS_T (41_configuration R90). -/
  | getOsrsT
  /-- GET_OSRS_P (41_configuration R91). -/
  | getOsrsP
  /-- GET_STANDBY (41_configuration R92). -/
  | getStandby
  /-- GET_FILTER (41_configuration R93). -/
  | getFilter
  /-- GET_TEMPERATURE (43_driver R126). -/
  | getTemperature
  /-- GET_PRESSURE (43_driver R127). -/
  | getPressure
  /-- GET_HUMIDITY (43_driver R128). -/
  | getHumidity
  /-- GET_ID (43_driver R129). -/
  | getId
  /-- GET_COEF k (40_trimming R77). -/
  | getCoef (k : Byte)
deriving DecidableEq, Repr

end Sys2Proof
end

