-- ==== Sys2Proof/WellFormed.lean ====
section
/-! DEFINITION. Which commands the command map contains: a format V operand may be any byte (the setter judges it,
not the decoder) and a coefficient index is 0 .. 11 (30_encoding R52, R66). -/

namespace Sys2Proof

/-- The index of a coefficient register (40_trimming R77): 0 .. 11. -/
def coefIndexOk (k : Byte) : Bool := k.toNat < 12

/-- The command is one the decoder can produce. -/
def Instr.wf : Instr → Bool
  | .init => true
  | .update => true
  | .reset => true
  | .setMode _ => true
  | .setOsrsT _ => true
  | .setOsrsP _ => true
  | .setStandby _ => true
  | .setFilter _ => true
  | .getMode => true
  | .getOsrsT => true
  | .getOsrsP => true
  | .getStandby => true
  | .getFilter => true
  | .getTemperature => true
  | .getPressure => true
  | .getHumidity => true
  | .getId => true
  | .getCoef k => coefIndexOk k

end Sys2Proof
end

