-- ==== Sys2Proof/Decode.lean ====
section
/-! DEFINITION. The command map (30_encoding R50 to R52, R66): the decoder, total on the 65536 words and refusing by
name; the encoder; the map's match and mask pairs; the host's numbering of a table word. -/

namespace Sys2Proof

/-- Why a word selects no command (30_encoding R52). -/
inductive DecodeError where
  /-- No row of the command map has this `op`. -/
  | unknownOp
  /-- A format N command with `arg != 0`. -/
  | operandNotZero
  /-- GET_COEF with `arg > 11`. -/
  | coefIndexOutOfRange
deriving DecidableEq, Repr

/-- What the decoder answers. -/
inductive Decoded where
  | command (i : Instr)
  | illegal (why : DecodeError)
deriving DecidableEq, Repr

/-- `op = cmd[15:8]` (30_encoding R50). -/
def opField (w : Word16) : Byte := w.extractLsb' 8 8

/-- `arg = cmd[7:0]` (30_encoding R50). -/
def argField (w : Word16) : Byte := w.extractLsb' 0 8

/-- Format N: `arg` must be 0x00. -/
def noOperand (i : Instr) (arg : Byte) : Decoded :=
  if arg = 0 then .command i else .illegal .operandNotZero

/-- Format K: `arg` is a coefficient index 0 .. 11. -/
def indexOperand (arg : Byte) : Decoded :=
  if coefIndexOk arg then .command (.getCoef arg) else .illegal .coefIndexOutOfRange

/-- The decoder (30_encoding R51, R52). -/
def decode (w : Word16) : Decoded :=
  match (opField w).toNat with
  | 0x01 => noOperand .init (argField w)
  | 0x02 => noOperand .update (argField w)
  | 0x03 => noOperand .reset (argField w)
  | 0x10 => .command (.setMode (argField w))
  | 0x11 => .command (.setOsrsT (argField w))
  | 0x12 => .command (.setOsrsP (argField w))
  | 0x13 => .command (.setStandby (argField w))
  | 0x14 => .command (.setFilter (argField w))
  | 0x20 => noOperand .getMode (argField w)
  | 0x21 => noOperand .getOsrsT (argField w)
  | 0x22 => noOperand .getOsrsP (argField w)
  | 0x23 => noOperand .getStandby (argField w)
  | 0x24 => noOperand .getFilter (argField w)
  | 0x30 => noOperand .getTemperature (argField w)
  | 0x31 => noOperand .getPressure (argField w)
  | 0x32 => noOperand .getHumidity (argField w)
  | 0x33 => noOperand .getId (argField w)
  | 0x34 => indexOperand (argField w)
  | _ => .illegal .unknownOp

/-- The `op` of a command (30_encoding R51). -/
def opOf : Instr → Byte
  | .init => 0x01
  | .update => 0x02
  | .reset => 0x03
  | .setMode _ => 0x10
  | .setOsrsT _ => 0x11
  | .setOsrsP _ => 0x12
  | .setStandby _ => 0x13
  | .setFilter _ => 0x14
  | .getMode => 0x20
  | .getOsrsT => 0x21
  | .getOsrsP => 0x22
  | .getStandby => 0x23
  | .getFilter => 0x24
  | .getTemperature => 0x30
  | .getPressure => 0x31
  | .getHumidity => 0x32
  | .getId => 0x33
  | .getCoef _ => 0x34

/-- The `arg` of a command: its operand, or 0x00 in format N (30_encoding R50). -/
def argOf : Instr → Byte
  | .setMode v => v
  | .setOsrsT v => v
  | .setOsrsP v => v
  | .setStandby v => v
  | .setFilter v => v
  | .getCoef k => k
  | .init => 0
  | .update => 0
  | .reset => 0
  | .getMode => 0
  | .getOsrsT => 0
  | .getOsrsP => 0
  | .getStandby => 0
  | .getFilter => 0
  | .getTemperature => 0
  | .getPressure => 0
  | .getHumidity => 0
  | .getId => 0

/-- The encoder: `op ++ arg`. -/
def encode (i : Instr) : Word16 := opOf i ++ argOf i

/-- The mnemonic of a command, as the command map spells it (30_encoding R51). -/
def mnemonicOf : Instr → String
  | .init => "INIT"
  | .update => "UPDATE"
  | .reset => "RESET"
  | .setMode _ => "SET_MODE"
  | .setOsrsT _ => "SET_OSRS_T"
  | .setOsrsP _ => "SET_OSRS_P"
  | .setStandby _ => "SET_STANDBY"
  | .setFilter _ => "SET_FILTER"
  | .getMode => "GET_MODE"
  | .getOsrsT => "GET_OSRS_T"
  | .getOsrsP => "GET_OSRS_P"
  | .getStandby => "GET_STANDBY"
  | .getFilter => "GET_FILTER"
  | .getTemperature => "GET_TEMPERATURE"
  | .getPressure => "GET_PRESSURE"
  | .getHumidity => "GET_HUMIDITY"
  | .getId => "GET_ID"
  | .getCoef _ => "GET_COEF"

/-- A row of the command map: a word `cmd` selects it when `cmd & mask = pattern` (30_encoding R51). -/
structure MapRow where
  mnemonic : String
  pattern : Word16
  mask : Word16
deriving DecidableEq, Repr

/-- The word selects the row. -/
def MapRow.selects (r : MapRow) (w : Word16) : Bool := w &&& r.mask == r.pattern

/-- The 18 match and mask pairs of 30_encoding R51, in the table's order. -/
def commandMap : List MapRow :=
  [ ⟨"INIT", 0x0100, 0xFFFF⟩, ⟨"UPDATE", 0x0200, 0xFFFF⟩, ⟨"RESET", 0x0300, 0xFFFF⟩,
    ⟨"SET_MODE", 0x1000, 0xFF00⟩, ⟨"SET_OSRS_T", 0x1100, 0xFF00⟩, ⟨"SET_OSRS_P", 0x1200, 0xFF00⟩,
    ⟨"SET_STANDBY", 0x1300, 0xFF00⟩, ⟨"SET_FILTER", 0x1400, 0xFF00⟩,
    ⟨"GET_MODE", 0x2000, 0xFFFF⟩, ⟨"GET_OSRS_T", 0x2100, 0xFFFF⟩, ⟨"GET_OSRS_P", 0x2200, 0xFFFF⟩,
    ⟨"GET_STANDBY", 0x2300, 0xFFFF⟩, ⟨"GET_FILTER", 0x2400, 0xFFFF⟩,
    ⟨"GET_TEMPERATURE", 0x3000, 0xFFFF⟩, ⟨"GET_PRESSURE", 0x3100, 0xFFFF⟩,
    ⟨"GET_HUMIDITY", 0x3200, 0xFFFF⟩, ⟨"GET_ID", 0x3300, 0xFFFF⟩, ⟨"GET_COEF", 0x3400, 0xFF00⟩ ]

/-- The command word of `nbits` bits numbered as spec/opcode_table.json numbers them: the table's rows are one 16-bit
word, and bits above `nbits` are 0 (log entry 15). -/
def tableWord (nbits w : Nat) : Word16 := BitVec.ofNat 16 (w % 2 ^ nbits)

/-- The command the decoder reads from a table word, or none where it refuses. -/
def decodeTableWord (nbits w : Nat) : Option Instr :=
  match decode (tableWord nbits w) with
  | .command i => some i
  | .illegal _ => none

end Sys2Proof
end

