-- ==== Sys2Proof/Config.lean ====
section
/-! DEFINITION. What the spec leaves OPEN: the parameters with no value in any source (00_scope R5) and the free
answers of the register bus (20_memory R33). The parameters to which the spec gives a value stand in
Sys2Proof/Machine/Params.lean. -/

namespace Sys2Proof

/-- What the environment answers to one bus transaction (20_memory R31, R32, R33): failure, or completion. The bytes
are those a read delivers; a completed write delivers none and ignores them. -/
inductive BusAnswer where
  /-- The transport failed: "device absent, NACK, timeout". -/
  | busError
  /-- The transaction completed and delivered these bytes, `b[0]` first. -/
  | complete (bytes : List Byte)
deriving DecidableEq, Repr, Inhabited

/-- FREE VALUE (20_memory R33; IU1, IU2; log entry 2): the oracle's answer to the bus transaction of the given number,
where the environment's script holds none. Nothing constrains it: claims hold whatever it is. -/
opaque Config.busAnswer : Nat → BusAnswer

/-- `SETTLE_DELAY` (00_scope R5, OPEN; 20_memory R38; IU4; log entry 5): the length of the one wait of UPDATE, in a
unit the spec does not name. -/
opaque Config.settleDelay : Nat

/-- `DEV_ADDR` (00_scope R5, OPEN; 20_memory R46; IU5; log entry 6): the device's address on the transport, carried
unchanged with every transaction. -/
opaque Config.devAddr : Nat

end Sys2Proof
end

