-- ==== Sys2Proof/Machine/State.lean ====
section
/-! DEFINITION. The architectural state (10_state R10), the ports (30_encoding R50, R53), the environment's inputs and
the record of bus events (20_memory R33, R39), as plain data; the state after hardware reset (10_state R24). -/

namespace Sys2Proof.Machine

/-- `DRV_STATE` (10_state R11). -/
inductive DrvState where
  /-- Code 0: after hardware reset and after any failed INIT. -/
  | uninit
  /-- Code 1: after a successful INIT, and after every UPDATE. -/
  | ready
  /-- Code 2: held only inside one UPDATE. -/
  | measuring
deriving DecidableEq, Repr

/-- The twelve coefficient registers (10_state R12): `d1 d2 d3` are `DIG_T[0..2]`, `p1 .. p9` are `DIG_P[0..8]`. -/
structure TrimTable where
  d1 : Coef
  d2 : Coef
  d3 : Coef
  p1 : Coef
  p2 : Coef
  p3 : Coef
  p4 : Coef
  p5 : Coef
  p6 : Coef
  p7 : Coef
  p8 : Coef
  p9 : Coef
deriving DecidableEq, Repr

/-- The status of a response (30_encoding R54). -/
inductive Status where
  | ok
  | busError
  | configurationError
  | stateError
  | noValue
  | illegalCommand
deriving DecidableEq, Repr

/-- What can end a command early (60_exceptions R140). -/
inductive Exc where
  /-- A `MemRead` or `MemWrite` failed (R141). -/
  | busError
  /-- A setter's operand is outside its legal set (R142). -/
  | configurationError
  /-- The command is not allowed in the current `DRV_STATE` (R143). -/
  | stateError
  /-- The value asked for does not exist (R144). -/
  | noValue
  /-- The word selects no command (R145). -/
  | illegalCommand
deriving DecidableEq, Repr

/-- One response: `RSP_STATUS`, `RSP_D0`, `RSP_D1` (30_encoding R53). -/
structure Response where
  status : Status
  d0 : Lane
  d1 : Lane
deriving DecidableEq, Repr

/-- One event of the register bus (20_memory R39). -/
inductive BusEvent where
  /-- `MemRead(addr, n)` and the bytes it yielded, none where it raised BusError (R31). -/
  | read (addr : Byte) (n : Nat) (result : Option (List Byte))
  /-- `MemWrite(addr, 1, v)` and whether it completed (R32). -/
  | write (addr : Byte) (v : Byte) (done : Bool)
  /-- `Wait`: the settling delay, of this length (R38). -/
  | wait (delay : Nat)
  /-- A `MemRead` that was in progress when hardware reset abandoned it: it delivered no answer, and whether the device
  saw it is unknown (70_reset R160). -/
  | readAbandoned (addr : Byte) (n : Nat)
  /-- A `MemWrite` in progress, abandoned by hardware reset. -/
  | writeAbandoned (addr : Byte) (v : Byte)
  /-- A `Wait` in progress, abandoned by hardware reset, the one thing that can (R38). -/
  | waitAbandoned (delay : Nat)
deriving DecidableEq, Repr

/-- What the host does next (30_encoding R50; 70_reset R160; log entries 15 and 16). -/
inductive HostInput where
  /-- Present a command word on the command port. -/
  | cmd (w : Word16)
  /-- Assert `RST` between two commands. -/
  | rst
  /-- Present a command word and assert `RST` while it runs, after its first `k` bus events; `inside` says that the
  next event, if the command has one, is already in progress. -/
  | cmdThenRst (w : Word16) (k : Nat) (inside : Bool)
deriving DecidableEq, Repr

/-- The reasons a step could stop with a fault. There is NONE: "none of them is a hang or a stuck state; a command
always ends with a response" (00_scope R9), so the type has no constructor and nobody raises one. -/
inductive Fault where
deriving DecidableEq, Repr

/-- The reasons a step could refuse an instruction. -/
inductive Refusal where
  /-- An instruction with no meaning in exec yet; raised by exec's refused arms alone, of which this model has none.
  Safe: the model stops where the hardware goes on. -/
  | notModelled (mnemonic : String)
deriving DecidableEq, Repr

end Sys2Proof.Machine

namespace Sys2Proof.Machine

/-- The machine. The registers of 10_state R10 come first; then the ports and the command index; then the
environment's inputs and the record of the bus, which are the model's own fields (log entries 2, 4, 15). -/
structure State where
  /-- `DRV_STATE` (R11). -/
  drv : DrvState
  /-- `DIG_T[0..2]`, `DIG_P[0..8]` (R12). -/
  trim : TrimTable
  /-- `TRIM_VALID` (R13). -/
  trimValid : Bool
  /-- `CTRL_MEAS_SH` (R14). -/
  ctrlMeasSh : Byte
  /-- `CONFIG_SH` (R15). -/
  configSh : Byte
  /-- `READING_T` (R17). -/
  readingT : F64
  /-- `READING_P` (R17). -/
  readingP : F64
  /-- `READING_VALID` (R18). -/
  readingValid : Bool
  /-- `ID[0]` (R19). -/
  id0 : Byte
  /-- `ID[1]` (R19). -/
  id1 : Byte
  /-- `BUSY` (R20). -/
  busy : Bool
  /-- The response port: none while `RSP_VALID` is low (30_encoding R53). -/
  rsp : Option Response
  /-- The index of the next command in the host's command sequence (R22). -/
  cmdIndex : Nat
  /-- What the host does next, oldest first. -/
  host : List HostInput
  /-- The oracle's answers to come, in order (20_memory R33). -/
  script : List BusAnswer
  /-- How many bus transactions were begun: the argument of the free answer `Config.busAnswer`. -/
  busCount : Nat
  /-- The bus events so far, oldest first (20_memory R39). -/
  trace : List BusEvent
deriving DecidableEq, Repr

/-- Coefficient registers that hold nothing yet. DESIGN CHOICE (log entry 1): the spec gives no value. -/
def TrimTable.cleared : TrimTable := ⟨0, 0, 0, 0, 0, 0, 0, 0, 0, 0, 0, 0⟩

/-- The machine right after hardware reset (10_state R24; 70_reset R160). The values of `trim`, `readingT`,
`readingP`, `id0` and `id1` are a DESIGN CHOICE (log entry 1): the spec gives none. -/
def State.reset : State where
  drv := .uninit
  trim := TrimTable.cleared
  trimValid := false
  ctrlMeasSh := 0x25
  configSh := 0x00
  readingT := 0
  readingP := 0
  readingValid := false
  id0 := 0
  id1 := 0
  busy := false
  rsp := none
  cmdIndex := 0
  host := []
  script := []
  busCount := 0
  trace := []

end Sys2Proof.Machine
end

