-- ==== Sys2Proof/Machine/Operands.lean ====
section
/-! DEFINITION. Operands: the enumerators and their codes `ENC` (30_encoding R58), the legal sets (R59), the packing
of the two configuration bytes (R55, R56; 41_configuration R80 to R82), zero and sign extension (R66). -/

namespace Sys2Proof.Machine

/-- Operating modes (30_encoding R58). -/
inductive Mode where
  | sleep
  | forced
  | normal
deriving DecidableEq, Repr

/-- Oversampling settings, the same set for temperature and pressure. -/
inductive Osrs where
  | skip
  | x1
  | x2
  | x4
  | x8
  | x16
deriving DecidableEq, Repr

/-- The eight standby intervals. -/
inductive Standby where
  | sb0
  | sb1
  | sb2
  | sb3
  | sb4
  | sb5
  | sb6
  | sb7
deriving DecidableEq, Repr

/-- Filter settings. -/
inductive FilterSel where
  | off
  | x2
  | x4
  | x8
  | x16
deriving DecidableEq, Repr

/-- `ENC` of a mode (30_encoding R58, decision D6; log entry 8). -/
def Mode.code : Mode → Byte
  | .sleep => 0
  | .forced => 1
  | .normal => 3

/-- `ENC` of an oversampling setting. -/
def Osrs.code : Osrs → Byte
  | .skip => 0
  | .x1 => 1
  | .x2 => 2
  | .x4 => 3
  | .x8 => 4
  | .x16 => 5

/-- `ENC` of a standby interval. -/
def Standby.code : Standby → Byte
  | .sb0 => 0
  | .sb1 => 1
  | .sb2 => 2
  | .sb3 => 3
  | .sb4 => 4
  | .sb5 => 5
  | .sb6 => 6
  | .sb7 => 7

/-- `ENC` of a filter setting. -/
def FilterSel.code : FilterSel → Byte
  | .off => 0
  | .x2 => 1
  | .x4 => 2
  | .x8 => 3
  | .x16 => 4

/-- The members of each enumerated set, in the order of 30_encoding R58. -/
def Mode.all : List Mode := [.sleep, .forced, .normal]

def Osrs.all : List Osrs := [.skip, .x1, .x2, .x4, .x8, .x16]

def Standby.all : List Standby := [.sb0, .sb1, .sb2, .sb3, .sb4, .sb5, .sb6, .sb7]

def FilterSel.all : List FilterSel := [.off, .x2, .x4, .x8, .x16]

/-- `LEGAL` of SET_MODE (30_encoding R59): the codes of the enumerated set. -/
def legalMode (v : Byte) : Bool := Mode.all.any fun m => m.code == v

/-- `LEGAL` of SET_OSRS_T and SET_OSRS_P. -/
def legalOsrs (v : Byte) : Bool := Osrs.all.any fun m => m.code == v

/-- `LEGAL` of SET_STANDBY. -/
def legalStandby (v : Byte) : Bool := Standby.all.any fun m => m.code == v

/-- `LEGAL` of SET_FILTER. -/
def legalFilter (v : Byte) : Bool := FilterSel.all.any fun m => m.code == v

/-- `PACK_CTRL` (41_configuration R80). -/
def packCtrl (tOver pOver mode : Byte) : Byte := (tOver <<< 5) ||| (pOver <<< 2) ||| mode

/-- `PACK_CONFIG` (41_configuration R81). -/
def packConfig (standby filter : Byte) : Byte := (standby <<< 5) ||| (filter <<< 2)

/-- Field `b[shift+width-1 : shift]`, as a byte. -/
def fieldOf (b : Byte) (shift width : Nat) : Byte := (b >>> shift) &&& (1#8 <<< width - 1#8)

/-- The byte with one field replaced and the others kept (41_configuration R83 line 3, R95). -/
def withField (b : Byte) (shift width : Nat) (v : Byte) : Byte :=
  (b &&& ~~~((1#8 <<< width - 1#8) <<< shift)) ||| ((v &&& (1#8 <<< width - 1#8)) <<< shift)

/-- `OSRS_T = CTRL_MEAS_SH[7:5]` (10_state R14). -/
def osrsTField (b : Byte) : Byte := fieldOf b 5 3

/-- `OSRS_P = CTRL_MEAS_SH[4:2]`. -/
def osrsPField (b : Byte) : Byte := fieldOf b 2 3

/-- `MODE = CTRL_MEAS_SH[1:0]`. -/
def modeField (b : Byte) : Byte := fieldOf b 0 2

/-- `T_SB = CONFIG_SH[7:5]` (10_state R15). -/
def standbyField (b : Byte) : Byte := fieldOf b 5 3

/-- `FILTER = CONFIG_SH[4:2]`. -/
def filterField (b : Byte) : Byte := fieldOf b 2 3

/-- `UNPACK_CTRL` (41_configuration R82). -/
def unpackCtrl (b : Byte) : Byte × Byte × Byte := (osrsTField b, osrsPField b, modeField b)

/-- `UNPACK_CONFIG` (41_configuration R82). -/
def unpackConfig (b : Byte) : Byte × Byte := (standbyField b, filterField b)

/-- `zext` of a byte to a response lane. -/
def zextLane (v : Byte) : Lane := v.setWidth 64

/-- `sext_17` of a coefficient to a response lane (40_trimming R77). -/
def sextLane (c : Coef) : Lane := c.signExtend 64

/-- `DEF_MODE`, `DEF_OSRS_T`, `DEF_OSRS_P` packed: the CTRL_MEAS_SH of INIT (00_scope R5; 43_driver R121 line 6). -/
def defaultCtrl : Byte := packCtrl Osrs.x1.code Osrs.x1.code Mode.forced.code

/-- `DEF_T_SB`, `DEF_FILTER` packed: the CONFIG_SH of INIT (decision D10; 43_driver R121 line 7). -/
def defaultConfig : Byte := packConfig Standby.sb0.code FilterSel.off.code

end Sys2Proof.Machine
end

