-- ==== Sys2Proof/Machine/Flags.lean ====
section
/-! DEFINITION. The status codes (30_encoding R54), the status of each exception (60_exceptions R140) and the status
bits of the block. The block has no condition codes. -/

namespace Sys2Proof.Machine

/-- `RSP_STATUS[7:0]` (30_encoding R54). -/
def Status.code : Status → Byte
  | .ok => 0x00
  | .busError => 0x01
  | .configurationError => 0x02
  | .stateError => 0x03
  | .noValue => 0x04
  | .illegalCommand => 0x05

/-- The status an exception ends a command with (60_exceptions R140). -/
def Exc.status : Exc → Status
  | .busError => .busError
  | .configurationError => .configurationError
  | .stateError => .stateError
  | .noValue => .noValue
  | .illegalCommand => .illegalCommand

/-- The code of `DRV_STATE` (10_state R11). -/
def DrvState.code : DrvState → BitVec 2
  | .uninit => 0
  | .ready => 1
  | .measuring => 2

/-- `CMD_READY = not BUSY` (30_encoding R50). -/
def cmdReady (s : State) : Bool := !s.busy

/-- `RSP_VALID` (30_encoding R53). -/
def rspValid (s : State) : Bool := s.rsp.isSome

end Sys2Proof.Machine
end

