-- ==== Sys2Proof/Machine/Params.lean ====
section
/-! DEFINITION. The implementation parameters to which the spec gives a value (00_scope R5; 20_memory R34). -/

namespace Sys2Proof.Machine

/-- `ADDR_ID`: the identification block, 2 bytes. -/
def addrId : Byte := 0xD0

/-- Bytes in the identification block (30_encoding R62). -/
def idLen : Nat := 2

/-- `ADDR_RESET`: the device's reset register. -/
def addrReset : Byte := 0xE0

/-- `RESET_WORD`: the byte written to `ADDR_RESET`. -/
def resetWord : Byte := 0xB6

/-- `ADDR_TRIM`: the trimming block. -/
def addrTrim : Byte := 0x88

/-- `TRIM_LEN`: bytes in the trimming block. -/
def trimLen : Nat := 24

/-- `ADDR_CTRL_MEAS`: the measurement-control register. -/
def addrCtrlMeas : Byte := 0xF4

/-- `ADDR_CONFIG`: the config register. -/
def addrConfig : Byte := 0xF5

/-- `ADDR_DATA`: the raw data block. -/
def addrData : Byte := 0xF7

/-- `DATA_LEN`: bytes in the raw data block. -/
def dataLen : Nat := 8

/-- `REBASE_MASK` (40_trimming R73; conflict C1; decision D5; log entry 7): bit `k` set when trimming word `k` is
sign-rebased on load. -/
def rebaseMask : BitVec 12 := 0xF80#12

/-- The other named value of `REBASE_MASK`: the type list's reading (00_scope R5). -/
def rebaseMaskTypeList : BitVec 12 := 0xFF6#12

end Sys2Proof.Machine
end

