-- ==== Sys2Proof/Machine/Ops.lean ====
section
/-! DEFINITION. The operations every command is made of: responding and raising (30_encoding R53; 60_exceptions R140),
the register bus (20_memory R31, R32, R38), writing the shadow registers, accepting a command word (10_state R20),
hardware reset (70_reset R160). -/

namespace Sys2Proof.Machine

/-- `respond(status, d0, d1)` (00_scope R7; 30_encoding R53): the response is put on the port, BUSY falls, and the
command index advances by one (10_state R22). -/
def respond (st : Status) (d0 d1 : Lane) (s : State) : State :=
  { s with rsp := some ⟨st, d0, d1⟩, busy := false, cmdIndex := s.cmdIndex + 1 }

/-- `raise E` (60_exceptions R140): the command ends with the exception's status, both lanes 0, and records nothing
else. This is the block's one way of taking an exception; nothing is saved and there is nothing to return from
(R149). -/
def raise (e : Exc) (s : State) : State := respond e.status 0 0 s

/-- The oracle's answer to the next transaction: the script's, or the free answer where the script is exhausted
(20_memory R33; log entry 2). -/
def nextAnswer (s : State) : BusAnswer := s.script.headD (Config.busAnswer s.busCount)

/-- One transaction takes its answer and appears on the bus exactly once (20_memory R39). -/
def transact (ev : BusEvent) (s : State) : State :=
  { s with script := s.script.tail, busCount := s.busCount + 1, trace := s.trace ++ [ev] }

/-- What `MemRead(_, n)` yields on an answer: exactly `n` bytes, or nothing; fewer bytes are a failure
(20_memory R31, decision D20; log entry 3). -/
def readResult (n : Nat) : BusAnswer → Option (List Byte)
  | .busError => none
  | .complete bytes => if n ≤ bytes.length then some (bytes.take n) else none

/-- Whether `MemWrite` completes on an answer (20_memory R32). -/
def writeDone : BusAnswer → Bool
  | .busError => false
  | .complete _ => true

/-- `MemRead(addr, n)`: the bytes, or none where it raises BusError (20_memory R31). -/
def memRead (addr : Byte) (n : Nat) (s : State) : Option (List Byte) × State :=
  (readResult n (nextAnswer s), transact (.read addr n (readResult n (nextAnswer s))) s)

/-- `MemWrite(addr, 1, v)`: whether it completed (20_memory R32). -/
def memWrite (addr v : Byte) (s : State) : Bool × State :=
  (writeDone (nextAnswer s), transact (.write addr v (writeDone (nextAnswer s))) s)

/-- `Wait(SETTLE_DELAY)` (20_memory R38): kept as an event in the order of the bus (log entry 5). -/
def waitSettle (s : State) : State := { s with trace := s.trace ++ [.wait Config.settleDelay] }

/-- Byte `b[j]` of what a read yielded. -/
def byteAt (b : List Byte) (j : Nat) : Byte := b.getD j 0

/-- Write `CTRL_MEAS_SH` (10_state R14). -/
def writeCtrlMeasSh (b : Byte) (s : State) : State := { s with ctrlMeasSh := b }

/-- Write `CONFIG_SH`, whose bits 1:0 are hardwired 0 (10_state R15; log entry 21). -/
def writeConfigSh (b : Byte) (s : State) : State := { s with configSh := b &&& 0xFC }

/-- Accept a command word: it leaves the host's sequence, BUSY rises, the previous response is over (10_state R20;
30_encoding R53). -/
def accept (rest : List HostInput) (s : State) : State :=
  { s with busy := true, host := rest, rsp := none }

/-- Hardware reset (70_reset R160): every register at its value of 10_state R24 and no response pending. It makes no
bus access (R162) and touches neither the environment nor the command index (log entry 16). -/
def hardwareReset (s : State) : State :=
  { State.reset with
    cmdIndex := s.cmdIndex, host := s.host, script := s.script, busCount := s.busCount, trace := s.trace }

/-- The event is a bus transaction that took an answer of the oracle. -/
def BusEvent.isTransaction : BusEvent → Bool
  | .read _ _ _ => true
  | .write _ _ _ => true
  | .wait _ => false
  | .readAbandoned _ _ => false
  | .writeAbandoned _ _ => false
  | .waitAbandoned _ => false

/-- The event is a transaction of the transport, answered or abandoned. -/
def BusEvent.onTransport : BusEvent → Bool
  | .read _ _ _ => true
  | .write _ _ _ => true
  | .wait _ => false
  | .readAbandoned _ _ => true
  | .writeAbandoned _ _ => true
  | .waitAbandoned _ => false

/-- The event as it stands on the bus when it is abandoned before its end (70_reset R160). -/
def BusEvent.cutShort : BusEvent → BusEvent
  | .read addr n _ => .readAbandoned addr n
  | .write addr v _ => .writeAbandoned addr v
  | .wait delay => .waitAbandoned delay
  | .readAbandoned addr n => .readAbandoned addr n
  | .writeAbandoned addr v => .writeAbandoned addr v
  | .waitAbandoned delay => .waitAbandoned delay

/-- What a command that would make these bus events has done on the bus when it is abandoned: its first `k` events, and
the next one cut short where `inside` says that it had begun. -/
def madeBefore (k : Nat) (inside : Bool) (evs : List BusEvent) : List BusEvent :=
  evs.take k ++ if inside then ((evs.drop k).take 1).map BusEvent.cutShort else []

/-- A command abandoned by hardware reset after its first `k` bus events, or inside the next (70_reset R160; log entry
16): `before` is the state in which it was accepted and `after` what it would have left. The events it made stand, the
one in progress is cut short and takes no answer, the registers are reset, and no response is given. -/
def abandon (k : Nat) (inside : Bool) (before after : State) : State :=
  let made := madeBefore k inside (after.trace.drop before.trace.length)
  let used := (made.filter BusEvent.isTransaction).length
  hardwareReset { before with
    script := before.script.drop used, busCount := before.busCount + used, trace := before.trace ++ made }

/-- The bus as the transport sees it: every transaction carries `DEV_ADDR` unchanged (20_memory R46; log entry 6). -/
def transportTrace (s : State) : List (Nat × BusEvent) :=
  (s.trace.filter BusEvent.onTransport).map fun ev => (Config.devAddr, ev)

end Sys2Proof.Machine
end

