-- ==== Sys2Proof/Machine/Configuration.lean ====
section
/-! DEFINITION. The configuration decoder (41_configuration): the five setters, all over the template of R83, and the
five getters. -/

namespace Sys2Proof.Machine

/-- The setter template (41_configuration R83), its five lines in order: `legal` says whether the operand is in
`LEGAL`, `store` replaces the field of the shadow, `addr` is the device register and `shadow` the byte written. -/
def setter (legal : Bool) (store : State → State) (addr : Byte) (shadow : State → Byte) (s : State) : State :=
  if s.drv = .uninit then raise .stateError s
  else if legal = false then raise .configurationError s
  else
    let s₁ := store s
    match memWrite addr (shadow s₁) s₁ with
    | (false, s₂) => raise .busError s₂
    | (true, s₂) => respond .ok 0 0 s₂

/-- Replace a field of `CTRL_MEAS_SH`, keeping the others (41_configuration R95). -/
def storeCtrlField (shift width : Nat) (v : Byte) (s : State) : State :=
  writeCtrlMeasSh (withField s.ctrlMeasSh shift width v) s

/-- Replace a field of `CONFIG_SH`, keeping the other. -/
def storeConfigField (shift width : Nat) (v : Byte) (s : State) : State :=
  writeConfigSh (withField s.configSh shift width v) s

/-- SET_MODE v (41_configuration R84). -/
def execSetMode (v : Byte) (s : State) : Host.Outcome State Fault Refusal :=
  .next (setter (legalMode v) (storeCtrlField 0 2 v) addrCtrlMeas State.ctrlMeasSh s)

/-- SET_OSRS_T v (41_configuration R85). -/
def execSetOsrsT (v : Byte) (s : State) : Host.Outcome State Fault Refusal :=
  .next (setter (legalOsrs v) (storeCtrlField 5 3 v) addrCtrlMeas State.ctrlMeasSh s)

/-- SET_OSRS_P v (41_configuration R86). -/
def execSetOsrsP (v : Byte) (s : State) : Host.Outcome State Fault Refusal :=
  .next (setter (legalOsrs v) (storeCtrlField 2 3 v) addrCtrlMeas State.ctrlMeasSh s)

/-- SET_STANDBY v (41_configuration R87). -/
def execSetStandby (v : Byte) (s : State) : Host.Outcome State Fault Refusal :=
  .next (setter (legalStandby v) (storeConfigField 5 3 v) addrConfig State.configSh s)

/-- SET_FILTER v (41_configuration R88). -/
def execSetFilter (v : Byte) (s : State) : Host.Outcome State Fault Refusal :=
  .next (setter (legalFilter v) (storeConfigField 2 3 v) addrConfig State.configSh s)

/-- The getters' shape (41_configuration R89 to R93): the shadow's field, zero-extended; no bus access. -/
def getter (value : State → Byte) (s : State) : State :=
  if s.drv = .uninit then raise .stateError s else respond .ok (zextLane (value s)) 0 s

/-- GET_MODE (41_configuration R89). -/
def execGetMode (s : State) : Host.Outcome State Fault Refusal :=
  .next (getter (fun s => modeField s.ctrlMeasSh) s)

/-- GET_OSRS_T (41_configuration R90). -/
def execGetOsrsT (s : State) : Host.Outcome State Fault Refusal :=
  .next (getter (fun s => osrsTField s.ctrlMeasSh) s)

/-- GET_OSRS_P (41_configuration R91). -/
def execGetOsrsP (s : State) : Host.Outcome State Fault Refusal :=
  .next (getter (fun s => osrsPField s.ctrlMeasSh) s)

/-- GET_STANDBY (41_configuration R92). -/
def execGetStandby (s : State) : Host.Outcome State Fault Refusal :=
  .next (getter (fun s => standbyField s.configSh) s)

/-- GET_FILTER (41_configuration R93). -/
def execGetFilter (s : State) : Host.Outcome State Fault Refusal :=
  .next (getter (fun s => filterField s.configSh) s)

end Sys2Proof.Machine
end

