-- ==== Sys2Proof/Machine/Float64.lean ====
section
/-! DEFINITION. The `FLOAT` format (00_scope R5, decision D8): IEEE 754 binary64, round to nearest, ties to even, one
rounding per operation, no fused operation. Every operation computes its exact result over integers and rounds once
(42_compensation R107, R108; log entries 10 and 11). -/

namespace Sys2Proof.Machine

/-- What a binary64 pattern stands for: `fin neg m e` is the number `m * 2^e`, negated when `neg`. -/
inductive FVal where
  | nan
  | inf (neg : Bool)
  | fin (neg : Bool) (m : Nat) (e : Int)
deriving DecidableEq, Repr

/-- The sign bit, bit 63. -/
def f64Sign (x : F64) : Bool := x.msb

/-- The biased exponent, bits 62:52. -/
def f64Exp (x : F64) : Nat := (x.extractLsb' 52 11).toNat

/-- The fraction, bits 51:0. -/
def f64Frac (x : F64) : Nat := (x.extractLsb' 0 52).toNat

/-- Read a pattern. -/
def unpack (x : F64) : FVal :=
  if f64Exp x = 2047 then
    if f64Frac x = 0 then .inf (f64Sign x) else .nan
  else if f64Exp x = 0 then .fin (f64Sign x) (f64Frac x) (-1074)
  else .fin (f64Sign x) (2 ^ 52 + f64Frac x) ((f64Exp x : Int) - 1075)

/-- A pattern from its sign and its low 63 bits. -/
def signed (neg : Bool) (magnitude : Nat) : F64 :=
  BitVec.ofNat 64 ((if neg then 2 ^ 63 else 0) + magnitude)

/-- The low 63 bits of infinity: exponent 2047, fraction 0. -/
def infMagnitude : Nat := 2047 * 2 ^ 52

/-- An infinity of the given sign. -/
def infinity (neg : Bool) : F64 := signed neg infMagnitude

/-- The one NaN this model produces (log entry 11: no rule ever needs it, 42_compensation R109). -/
def quietNaN : F64 := 0x7FF8000000000000#64

/-- `m / 2^k` rounded to an integer, ties to even. -/
def roundShift (m k : Nat) : Nat :=
  let q := m >>> k
  let r := m % 2 ^ k
  if 2 ^ k < 2 * r ∨ (2 ^ k = 2 * r ∧ q % 2 = 1) then q + 1 else q

/-- The exponent of the last place kept when `m * 2^e` (`m` not 0) is rounded: 53 significant bits, but none below
`2^-1074`. -/
def roundExp (m : Nat) (e : Int) : Int := max (e + (Nat.log2 m : Int) - 52) (-1074)

/-- The number of last places `2^(roundExp m e)` in `m * 2^e`, rounded to an integer, ties to even. -/
def roundMant (m : Nat) (e : Int) : Nat :=
  if roundExp m e ≤ e then m <<< (e - roundExp m e).toNat else roundShift m (roundExp m e - e).toNat

/-- The low 63 bits of `m * 2^e` rounded to nearest, ties to even; a zero stays a zero, and what rounds past the
greatest finite number becomes infinity. A carry out of the significand moves into the exponent by itself. -/
def roundMagnitude (m : Nat) (e : Int) : Nat :=
  if m = 0 then 0
  else min infMagnitude ((roundExp m e + 1074).toNat * 2 ^ 52 + roundMant m e)

/-- `m * 2^e` with the given sign, rounded once to binary64. -/
def roundTo64 (neg : Bool) (m : Nat) (e : Int) : F64 := signed neg (roundMagnitude m e)

/-- The signed integer `± m`. -/
def signedInt (neg : Bool) (m : Nat) : Int := if neg then -(m : Int) else m

/-- `int_to_F(z)` (42_compensation R108). -/
def intToF (z : Int) : F64 := roundTo64 (decide (z < 0)) z.natAbs 0

/-- The exact sum of two finite numbers, rounded once. An exact zero is `+0.0` unless both operands are negative. -/
def addFin (n₁ : Bool) (m₁ : Nat) (e₁ : Int) (n₂ : Bool) (m₂ : Nat) (e₂ : Int) : F64 :=
  let e := min e₁ e₂
  let z := signedInt n₁ (m₁ <<< (e₁ - e).toNat) + signedInt n₂ (m₂ <<< (e₂ - e).toNat)
  roundTo64 (if z = 0 then n₁ && n₂ else decide (z < 0)) z.natAbs e

/-- The exact quotient of two finite numbers, the divisor not zero, rounded once: at least 57 quotient bits are
computed and a last bit says whether anything was left over. -/
def divFin (n₁ : Bool) (m₁ : Nat) (e₁ : Int) (n₂ : Bool) (m₂ : Nat) (e₂ : Int) : F64 :=
  let q := (m₁ <<< 110) / m₂
  let left := if (m₁ <<< 110) % m₂ = 0 then 0 else 1
  roundTo64 (n₁ != n₂) (2 * q + left) (e₁ - e₂ - 111)

/-- `fadd`. -/
def fadd (x y : F64) : F64 :=
  match unpack x, unpack y with
  | .nan, _ => quietNaN
  | _, .nan => quietNaN
  | .inf n₁, .inf n₂ => if n₁ = n₂ then infinity n₁ else quietNaN
  | .inf n, .fin _ _ _ => infinity n
  | .fin _ _ _, .inf n => infinity n
  | .fin n₁ m₁ e₁, .fin n₂ m₂ e₂ => addFin n₁ m₁ e₁ n₂ m₂ e₂

/-- The pattern with its sign bit inverted. -/
def fneg (x : F64) : F64 := x ^^^ 0x8000000000000000#64

/-- `fsub`: the sum with the subtrahend's sign inverted. -/
def fsub (x y : F64) : F64 := fadd x (fneg y)

/-- `fmul`. -/
def fmul (x y : F64) : F64 :=
  match unpack x, unpack y with
  | .nan, _ => quietNaN
  | _, .nan => quietNaN
  | .inf n₁, .inf n₂ => infinity (n₁ != n₂)
  | .inf n₁, .fin n₂ m _ => if m = 0 then quietNaN else infinity (n₁ != n₂)
  | .fin n₁ m _, .inf n₂ => if m = 0 then quietNaN else infinity (n₁ != n₂)
  | .fin n₁ m₁ e₁, .fin n₂ m₂ e₂ => roundTo64 (n₁ != n₂) (m₁ * m₂) (e₁ + e₂)

/-- `fdiv`. -/
def fdiv (x y : F64) : F64 :=
  match unpack x, unpack y with
  | .nan, _ => quietNaN
  | _, .nan => quietNaN
  | .inf _, .inf _ => quietNaN
  | .inf n₁, .fin n₂ _ _ => infinity (n₁ != n₂)
  | .fin n₁ _ _, .inf n₂ => signed (n₁ != n₂) 0
  | .fin n₁ m₁ e₁, .fin n₂ m₂ e₂ =>
    if m₂ = 0 then
      if m₁ = 0 then quietNaN else infinity (n₁ != n₂)
    else divFin n₁ m₁ e₁ n₂ m₂ e₂

/-- Floating-point equality with zero (42_compensation R106): true of `+0.0` and `-0.0` and of nothing else. -/
def isZero (x : F64) : Bool := x.toNat % 2 ^ 63 == 0

end Sys2Proof.Machine
end

