-- ==== Sys2Proof/Machine/Compensation.lean ====
section
/-! DEFINITION. The compensation engine (42_compensation): `COMP_T`, exact integers until one final division;
`COMP_P`, binary64 in the order of R107; `COMPENSATE`. Pure functions of their arguments (R100). -/

namespace Sys2Proof.Machine

/-- `x >> n` on an integer: `floor(x / 2^n)` (42_compensation R103). The remainder of `Int`'s `/` by a positive
number is never negative, so `/` is that floor. -/
def asr (x : Int) (n : Nat) : Int := x / 2 ^ n

/-- `t_fine` of `COMP_T` (42_compensation R101). -/
def tFineOf (T d1 d2 d3 : Int) : Int :=
  let a := asr T 3 - 2 * d1
  let m1 := a * d2
  let var1 := asr m1 11
  let b := asr T 4 - d1
  let sq := b * b
  let s := asr sq 12
  let m2 := s * d3
  let var2 := asr m2 14
  var1 + var2

/-- `c`, the temperature in hundredths of a degree (42_compensation R102). -/
def centiDegrees (tFine : Int) : Int := asr (tFine * 5 + 128) 8

/-- `temp = int_to_F(c) / 100.0` (42_compensation R102). -/
def tempOf (tFine : Int) : F64 := fdiv (intToF (centiDegrees tFine)) (intToF 100)

/-- `COMP_T` (42_compensation R101): `(t_fine, temp)`. -/
def compT (T d1 d2 d3 : Int) : Int × F64 :=
  (tFineOf T d1 d2 d3, tempOf (tFineOf T d1 d2 d3))

/-- Line 2 of 42_compensation R107: `v1`. -/
def presV1 (tFine : Int) : F64 :=
  let x1 := fdiv (intToF tFine) (intToF 2)
  fsub x1 (intToF 64000)

/-- Lines 3 to 11 of 42_compensation R107: `v2`, from `v1`. -/
def presV2 (v1 : F64) (p4 p5 p6 : Int) : F64 :=
  let x2 := fmul v1 v1
  let x3 := fmul x2 (intToF p6)
  let x4 := fdiv x3 (intToF 32768)
  let x5 := fmul v1 (intToF p5)
  let x6 := fmul x5 (intToF 2)
  let v2a := fadd x4 x6
  let x7 := fdiv v2a (intToF 4)
  let x8 := fmul (intToF p4) (intToF 65536)
  fadd x7 x8

/-- Lines 12 to 20 of 42_compensation R107: `v1c`, the divisor, from `v1`. -/
def presDivisor (v1 : F64) (p1 p2 p3 : Int) : F64 :=
  let x9 := fmul (intToF p3) v1
  let x10 := fmul x9 v1
  let x11 := fdiv x10 (intToF 524288)
  let x12 := fmul (intToF p2) v1
  let x13 := fadd x11 x12
  let v1b := fdiv x13 (intToF 524288)
  let x14 := fdiv v1b (intToF 32768)
  let x15 := fadd (intToF 1) x14
  fmul x15 (intToF p1)

/-- Lines 22 to 36 of 42_compensation R107, for a divisor `v1c` that is not zero. -/
def presResult (P : Int) (v2 v1c : F64) (p7 p8 p9 : Int) : F64 :=
  let q0 := fsub (intToF 1048576) (intToF P)
  let x16 := fdiv v2 (intToF 4096)
  let x17 := fsub q0 x16
  let x18 := fmul x17 (intToF 6250)
  let q := fdiv x18 v1c
  let x19 := fmul (intToF p9) q
  let x20 := fmul x19 q
  let w1 := fdiv x20 (intToF 2147483648)
  let x21 := fmul q (intToF p8)
  let w2 := fdiv x21 (intToF 32768)
  let x22 := fadd w1 w2
  let x23 := fadd x22 (intToF p7)
  let x24 := fdiv x23 (intToF 16)
  let x25 := fadd q x24
  fdiv x25 (intToF 100)

/-- `COMP_P` (42_compensation R105, R107): the pressure in hPa; `+0.0` when the divisor is a zero of either sign
(line 21, R106). -/
def compP (P tFine p1 p2 p3 p4 p5 p6 p7 p8 p9 : Int) : F64 :=
  let v1 := presV1 tFine
  let v1c := presDivisor v1 p1 p2 p3
  if isZero v1c then 0#64
  else presResult P (presV2 v1 p4 p5 p6) v1c p7 p8 p9

/-- `COMPENSATE` (42_compensation R100, R111): temperature first, its `t_fine` then handed to the pressure. There is
no humidity (R112). -/
def compensate (rawT rawP : Raw20) (t : TrimTable) : F64 × F64 :=
  let (tFine, temp) := compT rawT.toNat t.d1.toInt t.d2.toInt t.d3.toInt
  (temp, compP rawP.toNat tFine t.p1.toInt t.p2.toInt t.p3.toInt t.p4.toInt t.p5.toInt t.p6.toInt t.p7.toInt
    t.p8.toInt t.p9.toInt)

end Sys2Proof.Machine
end

