-- ==== Sys2Proof/Machine/Trimming.lean ====
section
/-! DEFINITION. The coefficient decoder `LOAD_TRIM` and the command GET_COEF (40_trimming). -/

namespace Sys2Proof.Machine

/-- `w[k] = b[2k] | (b[2k+1] << 8)` (40_trimming R71). -/
def trimWord (b : List Byte) (k : Nat) : Word16 :=
  (byteAt b (2 * k)).setWidth 16 ||| ((byteAt b (2 * k + 1)).setWidth 16 <<< 8)

/-- `c[k]` from word `k` (40_trimming R70, R73): a word whose mask bit is set and which is at least 32768 loses
65536; every other word is taken unsigned. -/
def rebase (mask : BitVec 12) (k : Nat) (w : Word16) : Coef :=
  if mask.getLsbD k = true ∧ 32768 ≤ w.toNat then BitVec.ofInt 17 ((w.toNat : Int) - 65536)
  else w.setWidth 17

/-- Coefficient `k` of a trimming block, under a `REBASE_MASK`. -/
def trimCoef (mask : BitVec 12) (b : List Byte) (k : Nat) : Coef := rebase mask k (trimWord b k)

/-- The twelve coefficients of a trimming block, under a `REBASE_MASK` (40_trimming R72): words 0 .. 2 are the
temperature coefficients, words 3 .. 11 the pressure coefficients. Total on every byte pattern (R74). -/
def decodeTrim (mask : BitVec 12) (b : List Byte) : TrimTable where
  d1 := trimCoef mask b 0
  d2 := trimCoef mask b 1
  d3 := trimCoef mask b 2
  p1 := trimCoef mask b 3
  p2 := trimCoef mask b 4
  p3 := trimCoef mask b 5
  p4 := trimCoef mask b 6
  p5 := trimCoef mask b 7
  p6 := trimCoef mask b 8
  p7 := trimCoef mask b 9
  p8 := trimCoef mask b 10
  p9 := trimCoef mask b 11

/-- `LOAD_TRIM()` (40_trimming R70, R76): one 24-byte read; none where it raises BusError. -/
def loadTrim (s : State) : Option TrimTable × State :=
  match memRead addrTrim trimLen s with
  | (none, s₁) => (none, s₁)
  | (some b, s₁) => (some (decodeTrim rebaseMask b), s₁)

/-- Coefficient register `k` (40_trimming R77): `DIG_T[k]` for `k < 3`, `DIG_P[k-3]` for `k` in 3 .. 11. -/
def coefOf (t : TrimTable) (k : Nat) : Coef :=
  [t.d1, t.d2, t.d3, t.p1, t.p2, t.p3, t.p4, t.p5, t.p6, t.p7, t.p8, t.p9].getD k 0

/-- GET_COEF k (40_trimming R77). An index above 11 is an illegal command (30_encoding R52), which the decoder never
lets through (log entry 18). -/
def execGetCoef (k : Byte) (s : State) : Host.Outcome State Fault Refusal :=
  .next <|
    if 11 < k.toNat then raise .illegalCommand s
    else if s.drv = .uninit then raise .stateError s
    else respond .ok (sextLane (coefOf s.trim k.toNat)) 0 s

end Sys2Proof.Machine
end

