-- ==== Sys2Proof/Machine/Driver.lean ====
section
/-! DEFINITION. The driver sequencer (43_driver): INIT, UPDATE, RESET and the accessors. -/

namespace Sys2Proof.Machine

/-- Lines 4 to 9 of INIT (43_driver R121), one commit: identification, coefficients, the default configuration in the
shadows, no reading, READY. -/
def commitInit (id : List Byte) (t : TrimTable) (s : State) : State :=
  writeConfigSh defaultConfig <| writeCtrlMeasSh defaultCtrl
    { s with
      id0 := byteAt id 0, id1 := byteAt id 1, trim := t, trimValid := true, readingValid := false, drv := .ready }

/-- INIT (43_driver R121): two reads, no write; a failure of either leaves every register as it was. -/
def execInit (s : State) : Host.Outcome State Fault Refusal :=
  .next <|
    if s.drv ≠ .uninit then raise .stateError s
    else
      match memRead addrId idLen s with
      | (none, s₁) => raise .busError s₁
      | (some id, s₁) =>
        match loadTrim s₁ with
        | (none, s₂) => raise .busError s₂
        | (some t, s₂) => respond .ok 0 0 (commitInit id t s₂)

/-- The raw codes of one data block (10_state R21): transients of UPDATE, not state. -/
structure RawSample where
  rawP : Raw20
  rawT : Raw20
  rawH : Word16
deriving DecidableEq, Repr

/-- Three bytes, most significant first, as a left-justified 20-bit code (20_memory R36). -/
def raw20 (hi mid lo : Byte) : Raw20 := (hi.setWidth 20 <<< 12) ||| (mid.setWidth 20 <<< 4) ||| (lo >>> 4).setWidth 20

/-- `assemble(b)` (43_driver R123; decision D11; log entry 9). -/
def assemble (b : List Byte) : RawSample where
  rawP := raw20 (byteAt b 0) (byteAt b 1) (byteAt b 2)
  rawT := raw20 (byteAt b 3) (byteAt b 4) (byteAt b 5)
  rawH := ((byteAt b 6).setWidth 16 <<< 8) ||| (byteAt b 7).setWidth 16

/-- Lines 6 to 10 of UPDATE (43_driver R122): the data block is compensated, the reading cached and returned. `rawH`
is discarded (R124). -/
def finishUpdate (b : List Byte) (s : State) : State :=
  let raw := assemble b
  let (temp, press) := compensate raw.rawT raw.rawP s.trim
  respond .ok temp press { s with readingT := temp, readingP := press, readingValid := true, drv := .ready }

/-- UPDATE (43_driver R122): trigger write, wait, data read; a failure returns to READY and changes nothing else. -/
def execUpdate (s : State) : Host.Outcome State Fault Refusal :=
  .next <|
    if s.drv ≠ .ready then raise .stateError s
    else
      let s₀ : State := { s with drv := .measuring }
      match memWrite addrCtrlMeas s₀.ctrlMeasSh s₀ with
      | (false, s₁) => raise .busError { s₁ with drv := .ready }
      | (true, s₁) =>
        match memRead addrData dataLen (waitSettle s₁) with
        | (none, s₂) => raise .busError { s₂ with drv := .ready }
        | (some b, s₂) => finishUpdate b s₂

/-- RESET (43_driver R125): one write of the reset word to the device; no register of the block changes. Line 1 reads
`DRV_STATE != READY`, UPDATE's own test, so it is written as it stands (log entry 17). -/
def execReset (s : State) : Host.Outcome State Fault Refusal :=
  .next <|
    if s.drv ≠ .ready then raise .stateError s
    else
      match memWrite addrReset resetWord s with
      | (false, s₁) => raise .busError s₁
      | (true, s₁) => respond .ok 0 0 s₁

/-- The accessors' shape (43_driver R126, R127): StateError before NoValue (60_exceptions R147). -/
def accessor (reading : State → F64) (s : State) : State :=
  if s.drv = .uninit then raise .stateError s
  else if s.readingValid = false then raise .noValue s
  else respond .ok (reading s) 0 s

/-- GET_TEMPERATURE (43_driver R126). -/
def execGetTemperature (s : State) : Host.Outcome State Fault Refusal :=
  .next (accessor State.readingT s)

/-- GET_PRESSURE (43_driver R127). -/
def execGetPressure (s : State) : Host.Outcome State Fault Refusal :=
  .next (accessor State.readingP s)

/-- GET_HUMIDITY (43_driver R128): there is never a value. -/
def execGetHumidity (s : State) : Host.Outcome State Fault Refusal :=
  .next (if s.drv = .uninit then raise .stateError s else raise .noValue s)

/-- `ID[0] | (ID[1] << 8)`, zero-extended (43_driver R129). -/
def idLane (s : State) : Lane := zextLane s.id0 ||| (zextLane s.id1 <<< 8)

/-- GET_ID (43_driver R129). -/
def execGetId (s : State) : Host.Outcome State Fault Refusal :=
  .next (if s.drv = .uninit then raise .stateError s else respond .ok (idLane s) 0 s)

end Sys2Proof.Machine
end

