-- ==== Sys2Proof/Machine/Dispatch.lean ====
section
/-! DEFINITION. One arm per command (30_encoding R51), each one direct call of its meaning. -/

namespace Sys2Proof.Machine

def exec (i : Instr) (s : State) : Host.Outcome State Fault Refusal :=
  match i with
  | .init => Sys2Proof.Machine.execInit s
  | .update => Sys2Proof.Machine.execUpdate s
  | .reset => Sys2Proof.Machine.execReset s
  | .setMode v => Sys2Proof.Machine.execSetMode v s
  | .setOsrsT v => Sys2Proof.Machine.execSetOsrsT v s
  | .setOsrsP v => Sys2Proof.Machine.execSetOsrsP v s
  | .setStandby v => Sys2Proof.Machine.execSetStandby v s
  | .setFilter v => Sys2Proof.Machine.execSetFilter v s
  | .getMode => Sys2Proof.Machine.execGetMode s
  | .getOsrsT => Sys2Proof.Machine.execGetOsrsT s
  | .getOsrsP => Sys2Proof.Machine.execGetOsrsP s
  | .getStandby => Sys2Proof.Machine.execGetStandby s
  | .getFilter => Sys2Proof.Machine.execGetFilter s
  | .getTemperature => Sys2Proof.Machine.execGetTemperature s
  | .getPressure => Sys2Proof.Machine.execGetPressure s
  | .getHumidity => Sys2Proof.Machine.execGetHumidity s
  | .getId => Sys2Proof.Machine.execGetId s
  | .getCoef k => Sys2Proof.Machine.execGetCoef k s

end Sys2Proof.Machine
end

