-- ==== Sys2Proof/Machine/Port.lean ====
section
/-! DEFINITION. The command port (30_encoding R50; 10_state R20, R22; 70_reset R160): what one step does around exec. -/

namespace Sys2Proof.Machine

/-- Run an accepted word: a word that selects no command raises IllegalCommand (30_encoding R52; 60_exceptions
R145). -/
def runWord (w : Word16) (s : State) : Host.Outcome State Fault Refusal :=
  match decode w with
  | .command i => exec i s
  | .illegal _ => .next (raise .illegalCommand s)

/-- Run an accepted word, abandoned by hardware reset after its first `k` bus events or inside the next (70_reset
R160). -/
def runWordThenReset (w : Word16) (k : Nat) (inside : Bool) (s : State) : Host.Outcome State Fault Refusal :=
  match runWord w s with
  | .next t => .next (abandon k inside s t)
  | .fault r => .fault r
  | .refused r => .refused r

/-- One step of the block: the host's next input is taken. `RST` resets the block whatever BUSY is (70_reset R160).
While BUSY no word is accepted: it stays offered (10_state R20; 60_exceptions R151; log entry 14). With nothing presented
the idle block's last response is no longer valid (30_encoding R53; 60_exceptions R149; log entry 13). -/
def portStep (s : State) : Host.Outcome State Fault Refusal :=
  match s.host with
  | [] => .next (if s.busy then s else { s with rsp := none })
  | .rst :: rest => .next (hardwareReset { s with host := rest })
  | .cmd w :: rest => if s.busy then .next s else runWord w (accept rest s)
  | .cmdThenRst w k inside :: rest =>
    if s.busy then .next (hardwareReset { s with host := .cmd w :: rest })
    else runWordThenReset w k inside (accept rest s)

/-- The state with a word standing on the idle command port, as the host's next input. -/
def present (w : Word16) (s : State) : State := { s with host := .cmd w :: s.host.tail, busy := false }

end Sys2Proof.Machine
end

