-- ==== Sys2Proof/Machine/Step.lean ====
section
/-! DEFINITION. The step of the machine, and the host's way of placing one command where the step takes its next. -/

namespace Sys2Proof.Machine

/-- One step (60_exceptions R151): one input of the host, taken to its end. -/
def step (s : State) : Host.Outcome State Fault Refusal := portStep s

/-- `s` with a table word standing on the idle command port (log entry 15): the next step accepts and runs it. -/
def State.withFetchWord (s : State) (nbits w : Nat) : State := present (tableWord nbits w) s

end Sys2Proof.Machine
end

