-- ==== Sys2Proof/Machine/Listing.lean ====
section
/-! DEFINITION. The textual syntax of listings and test programs (30_encoding R64; decision D27; log entry 22): a
mnemonic, and for format V an enumerator's name or `#` and a number, for format K an index. -/

namespace Sys2Proof.Machine

/-- What stands after the mnemonic. -/
inductive AsmOperand where
  /-- Nothing (format N). -/
  | absent
  /-- An enumerator's name (format V). -/
  | name (n : String)
  /-- `#v`, any number 0 .. 255 (format V). -/
  | number (v : Byte)
  /-- An index (format K). -/
  | index (k : Byte)
deriving DecidableEq, Repr

/-- The operand names of SET_MODE and their codes. -/
def modeNames : List (String × Byte) :=
  [("SLEEP", Mode.sleep.code), ("FORCED", Mode.forced.code), ("NORMAL", Mode.normal.code)]

/-- The operand names of SET_OSRS_T and SET_OSRS_P: here `X2` .. `X16` are oversampling codes. -/
def osrsNames : List (String × Byte) :=
  [("SKIP", Osrs.skip.code), ("X1", Osrs.x1.code), ("X2", Osrs.x2.code), ("X4", Osrs.x4.code),
    ("X8", Osrs.x8.code), ("X16", Osrs.x16.code)]

/-- The operand names of SET_STANDBY. -/
def standbyNames : List (String × Byte) :=
  [("SB0", Standby.sb0.code), ("SB1", Standby.sb1.code), ("SB2", Standby.sb2.code), ("SB3", Standby.sb3.code),
    ("SB4", Standby.sb4.code), ("SB5", Standby.sb5.code), ("SB6", Standby.sb6.code), ("SB7", Standby.sb7.code)]

/-- The operand names of SET_FILTER: here `X2` .. `X16` are filter codes. -/
def filterNames : List (String × Byte) :=
  [("OFF", FilterSel.off.code), ("X2", FilterSel.x2.code), ("X4", FilterSel.x4.code), ("X8", FilterSel.x8.code),
    ("X16", FilterSel.x16.code)]

/-- The code an operand names, in a setter's table of names. -/
def valueOperand (names : List (String × Byte)) : AsmOperand → Option Byte
  | .absent => none
  | .name n => (names.find? fun p => p.1 == n).map fun p => p.2
  | .number v => some v
  | .index _ => none

/-- A format N command takes no operand. -/
def bareOperand (i : Instr) : AsmOperand → Option Instr
  | .absent => some i
  | .name _ => none
  | .number _ => none
  | .index _ => none

/-- GET_COEF takes an index 0 .. 11. -/
def coefOperand : AsmOperand → Option Instr
  | .absent => none
  | .name _ => none
  | .number _ => none
  | .index k => if coefIndexOk k then some (.getCoef k) else none

/-- The command a line of a listing stands for, or none where the line is not of the syntax. -/
def assemble? (mnemonic : String) (o : AsmOperand) : Option Instr :=
  match mnemonic with
  | "INIT" => bareOperand .init o
  | "UPDATE" => bareOperand .update o
  | "RESET" => bareOperand .reset o
  | "SET_MODE" => (valueOperand modeNames o).map .setMode
  | "SET_OSRS_T" => (valueOperand osrsNames o).map .setOsrsT
  | "SET_OSRS_P" => (valueOperand osrsNames o).map .setOsrsP
  | "SET_STANDBY" => (valueOperand standbyNames o).map .setStandby
  | "SET_FILTER" => (valueOperand filterNames o).map .setFilter
  | "GET_MODE" => bareOperand .getMode o
  | "GET_OSRS_T" => bareOperand .getOsrsT o
  | "GET_OSRS_P" => bareOperand .getOsrsP o
  | "GET_STANDBY" => bareOperand .getStandby o
  | "GET_FILTER" => bareOperand .getFilter o
  | "GET_TEMPERATURE" => bareOperand .getTemperature o
  | "GET_PRESSURE" => bareOperand .getPressure o
  | "GET_HUMIDITY" => bareOperand .getHumidity o
  | "GET_ID" => bareOperand .getId o
  | "GET_COEF" => coefOperand o
  | _ => none

/-- The operand that names a value: the enumerator's name where there is one, else `#v`. -/
def showValue (names : List (String × Byte)) (v : Byte) : AsmOperand :=
  match names.find? fun p => p.2 == v with
  | some p => .name p.1
  | none => .number v

/-- The operand of a command's line. -/
def showOperand : Instr → AsmOperand
  | .setMode v => showValue modeNames v
  | .setOsrsT v => showValue osrsNames v
  | .setOsrsP v => showValue osrsNames v
  | .setStandby v => showValue standbyNames v
  | .setFilter v => showValue filterNames v
  | .getCoef k => .index k
  | .init => .absent
  | .update => .absent
  | .reset => .absent
  | .getMode => .absent
  | .getOsrsT => .absent
  | .getOsrsP => .absent
  | .getStandby => .absent
  | .getFilter => .absent
  | .getTemperature => .absent
  | .getPressure => .absent
  | .getHumidity => .absent
  | .getId => .absent

/-- The line of a listing, as text. -/
def showLine (i : Instr) : String :=
  match showOperand i with
  | .absent => mnemonicOf i
  | .name n => mnemonicOf i ++ " " ++ n
  | .number v => mnemonicOf i ++ " #" ++ Nat.repr v.toNat
  | .index k => mnemonicOf i ++ " " ++ Nat.repr k.toNat

/-- The line without its comment: `;` starts one. -/
def dropComment : List Char → List Char
  | [] => []
  | c :: cs => if c = ';' then [] else c :: dropComment cs

/-- The words of a line; blanks and tabs stand between words. `word` holds the letters of the word begun, last first. -/
def wordsFrom (word : List Char) : List Char → List (List Char)
  | [] => if word.isEmpty then [] else [word.reverse]
  | c :: cs =>
    if c = ' ' ∨ c = '\t' then
      if word.isEmpty then wordsFrom [] cs else word.reverse :: wordsFrom [] cs
    else wordsFrom (c :: word) cs

/-- The digits of the numbers of 00_scope R6 in rising value; a base uses the first ones. -/
def numberDigits : List Char := "0123456789ABCDEF".toList

/-- The value of a digit is its place among the digits; a small letter stands for the large one. -/
def digitValue (c : Char) : Option Nat := numberDigits.idxOf? c.toUpper

/-- The number digits stand for in a base, `acc` before them. -/
def digitsValue (base acc : Nat) : List Char → Option Nat
  | [] => some acc
  | c :: cs =>
    match digitValue c with
    | none => none
    | some d => if d < base then digitsValue base (base * acc + d) cs else none

/-- A number 0 .. 255: decimal, hexadecimal after `0x`, or binary after `0b` (00_scope R6). -/
def readByte (w : List Char) : Option Byte :=
  let n := match w with
    | [] => none
    | '0' :: 'x' :: [] => none
    | '0' :: 'x' :: ds => digitsValue 16 0 ds
    | '0' :: 'b' :: [] => none
    | '0' :: 'b' :: ds => digitsValue 2 0 ds
    | ds => digitsValue 10 0 ds
  match n with
  | none => none
  | some n => if n < 256 then some (BitVec.ofNat 8 n) else none

/-- The operand a word is: `#` and a number, an index, or a name. -/
def readOperand : List Char → Option AsmOperand
  | [] => none
  | c :: cs =>
    if c = '#' then (readByte cs).map .number
    else if c.isDigit then (readByte (c :: cs)).map .index
    else some (.name (String.ofList (c :: cs)))

/-- The commands of one line: one, or none on a line that holds none; no answer where the line is not of the syntax. -/
def parseLine (line : List Char) : Option (List Instr) :=
  match wordsFrom [] (dropComment line) with
  | [] => some []
  | [m] => (assemble? (String.ofList m) .absent).map fun i => [i]
  | [m, w] =>
    match readOperand w with
    | none => none
    | some o => (assemble? (String.ofList m) o).map fun i => [i]
  | _ => none

/-- The commands of a listing, one command a line. -/
def parseListing : List (List Char) → Option (List Instr)
  | [] => some []
  | l :: ls =>
    match parseLine l, parseListing ls with
    | some is, some js => some (is ++ js)
    | none, _ => none
    | some _, none => none

end Sys2Proof.Machine
end

