-- ==== Sys2Proof/Safety.lean ====
section
/-! DEFINITION. The terms claims use: the oracle's answers seen from a state, the invariant of a safe state
(10_state R11, R13, R15, R16; 40_trimming R74; 30_encoding R53), groups of commands, the numbers binary64 patterns
stand for and what a correctly rounded result is (00_scope R7). -/

namespace Sys2Proof.Machine

/-- The oracle's answer to the transaction that comes after `k` more (20_memory R33). -/
def answerAt (s : State) (k : Nat) : BusAnswer := s.script.getD k (Config.busAnswer (s.busCount + k))

/-- `s` after `n` transactions took their answers and these events appeared on the bus. -/
def onBus (n : Nat) (evs : List BusEvent) (s : State) : State :=
  { s with script := s.script.drop n, busCount := s.busCount + n, trace := s.trace ++ evs }

/-- The value lies in 0 .. 65535. -/
abbrev InU16 (z : Int) : Prop := 0 ≤ z ∧ z ≤ 65535

/-- The value lies in -32768 .. 32767. -/
abbrev InS16 (z : Int) : Prop := -32768 ≤ z ∧ z ≤ 32767

/-- The ranges of loaded coefficients with `REBASE_MASK` = 0xF80 (40_trimming R74). -/
abbrev RangesF80 (t : TrimTable) : Prop :=
  InU16 t.d1.toInt ∧ InU16 t.d2.toInt ∧ InU16 t.d3.toInt ∧ InU16 t.p1.toInt ∧ InU16 t.p2.toInt ∧
    InU16 t.p3.toInt ∧ InU16 t.p4.toInt ∧ InS16 t.p5.toInt ∧ InS16 t.p6.toInt ∧ InS16 t.p7.toInt ∧
    InS16 t.p8.toInt ∧ InS16 t.p9.toInt

/-- The ranges of loaded coefficients with `REBASE_MASK` = 0xFF6 (40_trimming R74). -/
abbrev RangesFF6 (t : TrimTable) : Prop :=
  InU16 t.d1.toInt ∧ InS16 t.d2.toInt ∧ InS16 t.d3.toInt ∧ InU16 t.p1.toInt ∧ InS16 t.p2.toInt ∧
    InS16 t.p3.toInt ∧ InS16 t.p4.toInt ∧ InS16 t.p5.toInt ∧ InS16 t.p6.toInt ∧ InS16 t.p7.toInt ∧
    InS16 t.p8.toInt ∧ InS16 t.p9.toInt

/-- The invariant of a command boundary. -/
structure Inv (s : State) : Prop where
  /-- No command is executing (10_state R20). -/
  idle : s.busy = false
  /-- No command observes MEASURING at its start (10_state R11). -/
  notMeasuring : s.drv ≠ .measuring
  /-- `TRIM_VALID = 1 <-> DRV_STATE != UNINIT` (10_state R13). -/
  trimValid : s.trimValid = true ↔ s.drv ≠ .uninit
  /-- A reading exists only in READY (10_state R18, R24). -/
  readingValid : s.readingValid = true → s.drv = .ready
  /-- The shadows hold legal codes (10_state R16). -/
  mode : legalMode (modeField s.ctrlMeasSh) = true
  osrsT : legalOsrs (osrsTField s.ctrlMeasSh) = true
  osrsP : legalOsrs (osrsPField s.ctrlMeasSh) = true
  standby : legalStandby (standbyField s.configSh) = true
  filter : legalFilter (filterField s.configSh) = true
  /-- CONFIG_SH[1:0] are hardwired 0 (10_state R15). -/
  configLow : s.configSh &&& 0x03 = 0
  /-- Once a table is loaded, its coefficients are such as a load can produce (10_state R13; 40_trimming R74). -/
  coefficients : s.trimValid = true → RangesF80 s.trim
  /-- A response that is not OK carries zero lanes (30_encoding R53). -/
  lanes : ∀ r, s.rsp = some r → r.status ≠ .ok → r.d0 = 0 ∧ r.d1 = 0

/-- The commands that only read registers: the getters, the accessors and the observation commands. -/
def isReader : Instr → Bool
  | .init => false
  | .update => false
  | .reset => false
  | .setMode _ => false
  | .setOsrsT _ => false
  | .setOsrsP _ => false
  | .setStandby _ => false
  | .setFilter _ => false
  | .getMode => true
  | .getOsrsT => true
  | .getOsrsP => true
  | .getStandby => true
  | .getFilter => true
  | .getTemperature => true
  | .getPressure => true
  | .getHumidity => true
  | .getId => true
  | .getCoef _ => true

/-- The commands that store a configuration field. -/
def isSetter : Instr → Bool
  | .init => false
  | .update => false
  | .reset => false
  | .setMode _ => true
  | .setOsrsT _ => true
  | .setOsrsP _ => true
  | .setStandby _ => true
  | .setFilter _ => true
  | .getMode => false
  | .getOsrsT => false
  | .getOsrsP => false
  | .getStandby => false
  | .getFilter => false
  | .getTemperature => false
  | .getPressure => false
  | .getHumidity => false
  | .getId => false
  | .getCoef _ => false

/-- The host input holds no hardware reset. -/
def HostInput.isCommand : HostInput → Bool
  | .cmd _ => true
  | .rst => false
  | .cmdThenRst _ _ _ => false

/-- A bus event that a command running to its end may make: an access of the register map (20_memory R31, R32, R34;
30_encoding R63) or the wait. Only hardware reset leaves an abandoned one (70_reset R160). -/
def BusEvent.allowed : BusEvent → Bool
  | .read addr n _ => (addr == 0xD0 && n == 2) || (addr == 0x88 && n == 24) || (addr == 0xF7 && n == 8)
  | .write addr v _ => addr == 0xF4 || addr == 0xF5 || (addr == 0xE0 && v == 0xB6)
  | .wait _ => true
  | .readAbandoned _ _ => false
  | .writeAbandoned _ _ => false
  | .waitAbandoned _ => false

/-- The transaction ended in BusError (20_memory R31, R32). -/
def BusEvent.failed : BusEvent → Bool
  | .read _ _ result => result.isNone
  | .write _ _ done => !done
  | .wait _ => false
  | .readAbandoned _ _ => false
  | .writeAbandoned _ _ => false
  | .waitAbandoned _ => false

/-- The command is not allowed in the current `DRV_STATE` (60_exceptions R143). -/
abbrev StateErrorDue (i : Instr) (s : State) : Prop := (s.drv = .uninit ∧ i ≠ .init) ∨ (s.drv = .ready ∧ i = .init)

/-- The command is a setter with an operand outside its legal set (60_exceptions R142). -/
def setterRejects : Instr → Bool
  | .setMode v => !legalMode v
  | .setOsrsT v => !legalOsrs v
  | .setOsrsP v => !legalOsrs v
  | .setStandby v => !legalStandby v
  | .setFilter v => !legalFilter v
  | .init => false
  | .update => false
  | .reset => false
  | .getMode => false
  | .getOsrsT => false
  | .getOsrsP => false
  | .getStandby => false
  | .getFilter => false
  | .getTemperature => false
  | .getPressure => false
  | .getHumidity => false
  | .getId => false
  | .getCoef _ => false

/-- The command asks for a value that does not exist (60_exceptions R144). -/
abbrev NoValueDue (i : Instr) (s : State) : Prop :=
  (s.readingValid = false ∧ (i = .getTemperature ∨ i = .getPressure)) ∨ i = .getHumidity

/-- The response a command gives in a state, none where it gives none. -/
def responseOf (i : Instr) (s : State) : Option Response :=
  match exec i s with
  | .next t => t.rsp
  | .fault _ => none
  | .refused _ => none

/-- Two states have the same registers of 10_state R10 (BUSY apart, which every response lowers). -/
abbrev SameRegisters (s t : State) : Prop :=
  t.drv = s.drv ∧ t.trim = s.trim ∧ t.trimValid = s.trimValid ∧ t.ctrlMeasSh = s.ctrlMeasSh ∧
    t.configSh = s.configSh ∧ t.readingT = s.readingT ∧ t.readingP = s.readingP ∧
    t.readingValid = s.readingValid ∧ t.id0 = s.id0 ∧ t.id1 = s.id1

/-- The number a finite pattern stands for, none for an infinity or a NaN. -/
def f64Value (x : F64) : Option ℚ :=
  match unpack x with
  | .nan => none
  | .inf _ => none
  | .fin neg m e => some ((signedInt neg m : ℚ) * 2 ^ e)

/-- The pattern is finite: neither an infinity nor a NaN. -/
abbrev F64Finite (x : F64) : Prop := f64Exp x ≠ 2047

/-- `r` is the number `x` rounded to nearest, ties to even: no finite pattern is nearer to `x`, and where another
number is equally near, `r`'s last bit is 0. -/
def RoundedFrom (x : ℚ) (r : F64) : Prop :=
  ∃ v, f64Value r = some v ∧
    ∀ y w, f64Value y = some w → |v - x| ≤ |w - x| ∧ (|v - x| = |w - x| → w ≠ v → r.toNat % 2 = 0)

/-- `FLOAT_TOL` (00_scope R5): the relative tolerance of a pressure. -/
def floatTol : ℚ := 1 / 1000000

/-- `|r - ref| <= FLOAT_TOL * |ref|` (42_compensation R110), of finite numbers; zeros of either sign are one number. -/
def withinFloatTol (r ref : F64) : Bool :=
  match f64Value r, f64Value ref with
  | some v, some w => decide (|v - w| ≤ floatTol * |w|)
  | none, _ => false
  | some _, none => false

/-- The pressure `r` conforms for these arguments of `COMP_P` (42_compensation R110): in the degenerate case of R106 it
is exactly `+0.0`, in every other it is within `FLOAT_TOL` of the reference of R107. -/
def pressureConforms (P tFine p1 p2 p3 p4 p5 p6 p7 p8 p9 : Int) (r : F64) : Bool :=
  if isZero (presDivisor (presV1 tFine) p1 p2 p3) then r == 0
  else withinFloatTol r (compP P tFine p1 p2 p3 p4 p5 p6 p7 p8 p9)

end Sys2Proof.Machine
end

