-- ==== Sys2Proof/Certificates/Slice0/Obligations.lean ====
section
/-! DEFINITION. The statements for the provers, from the numbered rules of spec/. A statement about the answers of the
register bus holds for every script and for every value of the free answer (20_memory R33). -/

open Sys2Proof Sys2Proof.Machine

/-! ## Reset, the port and the step -/

/-- 10_state R24, 70_reset R160: the registers to which the spec gives a reset value. -/
def Obligations.ResetRegisterValues : Prop :=
  State.reset.drv = .uninit ∧ State.reset.trimValid = false ∧ State.reset.readingValid = false ∧
    State.reset.busy = false ∧ State.reset.ctrlMeasSh = 0x25 ∧ State.reset.configSh = 0x00

/-- 10_state R24, R11, R13, R16, R18: the invariant of a command boundary holds right after reset. -/
def Obligations.ResetSatisfiesInvariant : Prop := Inv State.reset

/-- 60_exceptions R151, 10_state R20, 43_driver R130: a word presented on the idle port that decodes to a command is
accepted (it leaves the host's sequence, BUSY rises, the last response is over) and the step is exec of it there. -/
def Obligations.StepRunsDecodedCommand : Prop :=
  ∀ (s : State) (w : Word16) (rest : List HostInput) (i : Instr),
    s.busy = false → s.host = .cmd w :: rest → decode w = .command i →
      step s = exec i { s with busy := true, host := rest, rsp := none }

/-- 30_encoding R52, 60_exceptions R145: an illegal word changes no register, makes no bus access and answers
ILLEGAL_COMMAND; the command index advances and the block is ready again. -/
def Obligations.IllegalWordChangesNothing : Prop :=
  ∀ (s : State) (w : Word16) (rest : List HostInput) (e : DecodeError),
    s.busy = false → s.host = .cmd w :: rest → decode w = .illegal e →
      step s = .next { s with
        host := rest, busy := false, rsp := some ⟨.illegalCommand, 0, 0⟩, cmdIndex := s.cmdIndex + 1 }

/-- 10_state R20, 60_exceptions R151 (a word offered while BUSY is not accepted and not lost) and log entries 13 and 14
(the model's choice: a step with nothing to accept changes nothing, but that an idle one ends the last response). -/
def Obligations.StepWithNothingToAccept : Prop :=
  (∀ (s : State) (w : Word16) (rest : List HostInput), s.busy = true → s.host = .cmd w :: rest → step s = .next s) ∧
    (∀ s : State, s.busy = true → s.host = [] → step s = .next s) ∧
    (∀ s : State, s.busy = false → s.host = [] → step s = .next { s with rsp := none })

/-- 70_reset R160, R162: RST that is not asserted during a step's own command puts every register the spec gives a value
at that value, whatever BUSY is, pends no response, and makes no bus access. The second clause, where RST was to come
during a word that BUSY holds back, is the model's choice (log entry 14, DESIGN CHOICE): the block is reset in this step
and the word stays offered. -/
def Obligations.HardwareResetBetweenCommands : Prop :=
  let isReset := fun (s t : State) =>
    t.drv = .uninit ∧ t.trimValid = false ∧ t.readingValid = false ∧ t.busy = false ∧ t.ctrlMeasSh = 0x25 ∧
      t.configSh = 0x00 ∧ t.rsp = none ∧ t.trace = s.trace ∧ t.script = s.script ∧ t.busCount = s.busCount
  (∀ (s : State) (rest : List HostInput), s.host = .rst :: rest →
      ∃ t, step s = .next t ∧ isReset s t ∧ t.host = rest) ∧
    (∀ (s : State) (w : Word16) (k : Nat) (inside : Bool) (rest : List HostInput),
      s.busy = true → s.host = .cmdThenRst w k inside :: rest →
        ∃ t, step s = .next t ∧ isReset s t ∧ t.host = .cmd w :: rest)

/-- 70_reset R160: a command during which RST is asserted after its first `k` bus events, or inside the next, gives no
response and leaves the registers of a hardware reset. On the bus stand the first `k` of the events it would have made
and, where RST came inside it, the next one, abandoned without an answer. That the command index is kept is the model's
choice (log entry 16). -/
def Obligations.HardwareResetDuringCommand : Prop :=
  ∀ (s : State) (w : Word16) (k : Nat) (inside : Bool) (rest : List HostInput),
    s.busy = false → s.host = .cmdThenRst w k inside :: rest →
      ∃ t u evs cut, step s = .next t ∧ step { s with host := .cmd w :: rest } = .next u ∧
        u.trace = s.trace ++ evs ∧ t.trace = s.trace ++ evs.take k ++ cut ∧
        (inside = false → cut = []) ∧ (inside = true → evs.length ≤ k → cut = []) ∧
        (inside = true → ∀ addr n result, evs[k]? = some (.read addr n result) → cut = [.readAbandoned addr n]) ∧
        (inside = true → ∀ addr v done, evs[k]? = some (.write addr v done) → cut = [.writeAbandoned addr v]) ∧
        (inside = true → ∀ delay, evs[k]? = some (.wait delay) → cut = [.waitAbandoned delay]) ∧
        t.drv = .uninit ∧ t.trimValid = false ∧ t.readingValid = false ∧
        t.busy = false ∧ t.ctrlMeasSh = 0x25 ∧ t.configSh = 0x00 ∧ t.rsp = none ∧ t.cmdIndex = s.cmdIndex ∧
        t.host = rest ∧ t.busCount = s.busCount + ((evs.take k).filter BusEvent.isTransaction).length ∧
        t.script = s.script.drop ((evs.take k).filter BusEvent.isTransaction).length

/-- 00_scope R9, 43_driver R130, 30_encoding R53: no step faults or refuses, and every accepted word gets exactly one
response, after which the block is ready and the command index has advanced by one. -/
def Obligations.EveryStepAnswers : Prop :=
  (∀ s : State, ∃ t, step s = .next t) ∧
    (∀ (s t : State) (w : Word16) (rest : List HostInput),
      s.busy = false → s.host = .cmd w :: rest → step s = .next t →
        t.rsp.isSome = true ∧ t.busy = false ∧ t.cmdIndex = s.cmdIndex + 1 ∧ t.host = rest)

/-- 10_state R11, R13, R15, R16, R18, R20; 40_trimming R74; 30_encoding R53: every step keeps the invariant of a command
boundary, from every state that meets it. -/
def Obligations.StepKeepsInvariant : Prop :=
  ∀ s t : State, Inv s → step s = .next t → Inv t

/-! ## Encoding -/

/-- Words of 30_encoding R51 and 95_test_vectors V-D1, written out from the spec's encodings. -/
def Obligations.SpecWordsDecode : Prop :=
  decode 0x0100 = .command .init ∧ decode 0x0200 = .command .update ∧ decode 0x0300 = .command .reset ∧
    decode 0x10FF = .command (.setMode 0xFF) ∧ decode 0x1205 = .command (.setOsrsP 5) ∧
    decode 0x2400 = .command .getFilter ∧ decode 0x3400 = .command (.getCoef 0) ∧
    decode 0x340B = .command (.getCoef 11) ∧ decode 0x0101 = .illegal .operandNotZero ∧
    decode 0x340C = .illegal .coefIndexOutOfRange ∧ decode 0x7700 = .illegal .unknownOp

/-- 30_encoding R50, R51, R66: decoding what is encoded gives the command back, with every operand at every value. -/
def Obligations.DecodeOfEncode : Prop :=
  ∀ i : Instr, i.wf = true → decode (encode i) = .command i

/-- 30_encoding R50, R52: what decodes is in the command map and encodes back to the same word, so no two words mean
one command. -/
def Obligations.EncodeOfDecode : Prop :=
  ∀ (w : Word16) (i : Instr), decode w = .command i → i.wf = true ∧ encode i = w

/-- 30_encoding R51, R52: a word decodes exactly when it selects a row of the command map (GET_COEF with `arg` at most
11), the row it selects is the decoded command's, and no word selects two rows. -/
def Obligations.DecodeFollowsCommandMap : Prop :=
  (∀ w : Word16, (∃ i, decode w = .command i) ↔
      ∃ r ∈ commandMap, r.selects w = true ∧ (r.mnemonic = "GET_COEF" → (argField w).toNat ≤ 11)) ∧
    (∀ (w : Word16) (i : Instr), decode w = .command i →
      ∀ r ∈ commandMap, r.selects w = true → r.mnemonic = mnemonicOf i) ∧
    commandMap.Pairwise fun r q => ∀ w : Word16, ¬(r.selects w = true ∧ q.selects w = true)

/-- 30_encoding R54: the codes of the statuses. -/
def Obligations.StatusCodes : Prop :=
  Status.ok.code = 0x00 ∧ Status.busError.code = 0x01 ∧ Status.configurationError.code = 0x02 ∧
    Status.stateError.code = 0x03 ∧ Status.noValue.code = 0x04 ∧ Status.illegalCommand.code = 0x05

/-- 30_encoding R64: the line of a listing stands for the command it lists, whatever the operand. -/
def Obligations.AssembleOfListing : Prop :=
  ∀ i : Instr, i.wf = true → assemble? (mnemonicOf i) (showOperand i) = some i

/-! ## Trimming -/

/-- 40_trimming R71: the even-indexed byte of a pair is the low byte of the word, with the rule's example. -/
def Obligations.TrimWordsAreLittleEndian : Prop :=
  (∀ (b : List Byte) (k : Nat),
      (trimWord b k).toNat = (byteAt b (2 * k)).toNat + 256 * (byteAt b (2 * k + 1)).toNat) ∧
    (∀ b : List Byte, byteAt b 0 = 0x70 → byteAt b 1 = 0x6B → (trimWord b 0).toNat = 27504)

/-- 40_trimming R73: a word whose mask bit is set is read as `sext_16`, every other word as `zext_16`; with the mask
of this spec (0xF80, its decision D5, log entry 7) exactly words 7 .. 11 are rebased. -/
def Obligations.RebaseReadsSignedOrUnsigned : Prop :=
  (∀ (mask : BitVec 12) (k : Nat) (w : Word16),
      (rebase mask k w).toInt = if mask.getLsbD k = true then w.toInt else (w.toNat : Int)) ∧
    (∀ k : Nat, rebaseMask.getLsbD k = true ↔ 7 ≤ k ∧ k ≤ 11)

/-- 40_trimming R74: the ranges of the twelve results under either mask, whatever the bytes. -/
def Obligations.LoadedCoefficientRanges : Prop :=
  ∀ b : List Byte, RangesF80 (decodeTrim 0xF80#12 b) ∧ RangesFF6 (decodeTrim 0xFF6#12 b)

/-- 40_trimming R72, 30_encoding R60: which word of the trimming block goes to which coefficient register, for every
block and under every mask, the registers written out in the order of GET_COEF (R77). -/
def Obligations.TrimWordsGoToTheirRegisters : Prop :=
  ∀ (mask : BitVec 12) (b : List Byte) (k : Nat), k < 12 →
    let t := decodeTrim mask b
    [t.d1, t.d2, t.d3, t.p1, t.p2, t.p3, t.p4, t.p5, t.p6, t.p7, t.p8, t.p9][k]? = some (rebase mask k (trimWord b k)) ∧
      coefOf t k = rebase mask k (trimWord b k)

/-- 40_trimming R77: GET_COEF answers its coefficient, sign-extended to 64 bits, and changes no register. -/
def Obligations.GetCoefReturnsCoefficient : Prop :=
  ∀ (s : State) (k : Byte), s.drv ≠ .uninit → k.toNat ≤ 11 →
    ∃ d0 : Lane, exec (.getCoef k) s = .next (respond .ok d0 0 s) ∧
      some d0.toInt =
        [s.trim.d1.toInt, s.trim.d2.toInt, s.trim.d3.toInt, s.trim.p1.toInt, s.trim.p2.toInt, s.trim.p3.toInt,
          s.trim.p4.toInt, s.trim.p5.toInt, s.trim.p6.toInt, s.trim.p7.toInt, s.trim.p8.toInt,
          s.trim.p9.toInt][k.toNat]?

/-- 40_trimming R75: whatever commands run and whatever the bus answers, once the driver has left UNINIT the
coefficients never change until hardware reset. -/
def Obligations.CoefficientsImmutableOnceLoaded : Prop :=
  ∀ (n : Nat) (s t : State), s.drv ≠ .uninit → (∀ x ∈ s.host, x.isCommand = true) →
    Sys2Proof.core.run n s = .next t → t.trim = s.trim ∧ t.drv ≠ .uninit

/-! ## Configuration -/

/-- 41_configuration R80, R81: the packed bytes of in-range fields, with the rules' examples. -/
def Obligations.PackedBytes : Prop :=
  (∀ t p m : Byte, t.toNat ≤ 7 → p.toNat ≤ 7 → m.toNat ≤ 3 →
      (packCtrl t p m).toNat = 32 * t.toNat + 4 * p.toNat + m.toNat) ∧
    (∀ a f : Byte, a.toNat ≤ 7 → f.toNat ≤ 7 → (packConfig a f).toNat = 32 * a.toNat + 4 * f.toNat) ∧
    packCtrl 1 1 1 = 0x25 ∧ packCtrl 5 5 3 = 0xB7 ∧ packCtrl 0 0 0 = 0x00 ∧
    packConfig 0 0 = 0x00 ∧ packConfig 4 4 = 0x90 ∧ packConfig 7 4 = 0xF0

/-- 41_configuration R82: packing and unpacking are inverse. -/
def Obligations.UnpackInvertsPack : Prop :=
  (∀ t p m : Byte, t.toNat ≤ 7 → p.toNat ≤ 7 → m.toNat ≤ 3 → unpackCtrl (packCtrl t p m) = (t, p, m)) ∧
    (∀ a f : Byte, a.toNat ≤ 7 → f.toNat ≤ 7 → unpackConfig (packConfig a f) = (a, f)) ∧
    (∀ b : Byte, packCtrl (unpackCtrl b).1 (unpackCtrl b).2.1 (unpackCtrl b).2.2 = b) ∧
    (∀ b : Byte, packConfig (unpackConfig b).1 (unpackConfig b).2 = b &&& 0xFC)

/-- 41_configuration R95: replacing the bits of one field is re-packing the new value with the other fields. -/
def Obligations.ReadModifyWriteIsRepacking : Prop :=
  ∀ b v : Byte,
    (legalMode v = true → withField b 0 2 v = packCtrl (osrsTField b) (osrsPField b) v) ∧
      (legalOsrs v = true → withField b 5 3 v = packCtrl v (osrsPField b) (modeField b)) ∧
      (legalOsrs v = true → withField b 2 3 v = packCtrl (osrsTField b) v (modeField b)) ∧
      (legalStandby v = true → withField b 5 3 v &&& 0xFC = packConfig v (filterField b)) ∧
      (legalFilter v = true → withField b 2 3 v &&& 0xFC = packConfig (standbyField b) v)

/-- 30_encoding R59: the legal sets, under the codes of R58, which the spec supplies from general knowledge (its decision
D6, log entry 8). -/
def Obligations.LegalSets : Prop :=
  ∀ v : Byte,
    (legalMode v = true ↔ v.toNat = 0 ∨ v.toNat = 1 ∨ v.toNat = 3) ∧ (legalOsrs v = true ↔ v.toNat ≤ 5) ∧
      (legalStandby v = true ↔ v.toNat ≤ 7) ∧ (legalFilter v = true ↔ v.toNat ≤ 4)

/-- 41_configuration R83 to R88: a setter with a legal operand whose write completes stores its field, writes the whole
packed byte once to its device register, answers OK and changes nothing else. -/
def Obligations.SettersStoreAndWriteOnce : Prop :=
  ∀ (s : State) (v : Byte), s.drv ≠ .uninit → writeDone (answerAt s 0) = true →
    ((v.toNat = 0 ∨ v.toNat = 1 ∨ v.toNat = 3) → exec (.setMode v) s = .next (respond .ok 0 0
        (onBus 1 [.write 0xF4 (packCtrl (osrsTField s.ctrlMeasSh) (osrsPField s.ctrlMeasSh) v) true]
          { s with ctrlMeasSh := packCtrl (osrsTField s.ctrlMeasSh) (osrsPField s.ctrlMeasSh) v }))) ∧
      (v.toNat ≤ 5 → exec (.setOsrsT v) s = .next (respond .ok 0 0
        (onBus 1 [.write 0xF4 (packCtrl v (osrsPField s.ctrlMeasSh) (modeField s.ctrlMeasSh)) true]
          { s with ctrlMeasSh := packCtrl v (osrsPField s.ctrlMeasSh) (modeField s.ctrlMeasSh) }))) ∧
      (v.toNat ≤ 5 → exec (.setOsrsP v) s = .next (respond .ok 0 0
        (onBus 1 [.write 0xF4 (packCtrl (osrsTField s.ctrlMeasSh) v (modeField s.ctrlMeasSh)) true]
          { s with ctrlMeasSh := packCtrl (osrsTField s.ctrlMeasSh) v (modeField s.ctrlMeasSh) }))) ∧
      (v.toNat ≤ 7 → exec (.setStandby v) s = .next (respond .ok 0 0
        (onBus 1 [.write 0xF5 (packConfig v (filterField s.configSh)) true]
          { s with configSh := packConfig v (filterField s.configSh) }))) ∧
      (v.toNat ≤ 4 → exec (.setFilter v) s = .next (respond .ok 0 0
        (onBus 1 [.write 0xF5 (packConfig (standbyField s.configSh) v) true]
          { s with configSh := packConfig (standbyField s.configSh) v })))

/-- 41_configuration R83, 60_exceptions R148, 70_reset R167: a setter whose write fails has attempted that one write,
answers BUS_ERROR, and leaves the shadow already changed. -/
def Obligations.FailedSetterKeepsNewShadow : Prop :=
  ∀ (s : State) (v : Byte), s.drv ≠ .uninit → writeDone (answerAt s 0) = false →
    ((v.toNat = 0 ∨ v.toNat = 1 ∨ v.toNat = 3) → exec (.setMode v) s = .next (respond .busError 0 0
        (onBus 1 [.write 0xF4 (packCtrl (osrsTField s.ctrlMeasSh) (osrsPField s.ctrlMeasSh) v) false]
          { s with ctrlMeasSh := packCtrl (osrsTField s.ctrlMeasSh) (osrsPField s.ctrlMeasSh) v }))) ∧
      (v.toNat ≤ 5 → exec (.setOsrsT v) s = .next (respond .busError 0 0
        (onBus 1 [.write 0xF4 (packCtrl v (osrsPField s.ctrlMeasSh) (modeField s.ctrlMeasSh)) false]
          { s with ctrlMeasSh := packCtrl v (osrsPField s.ctrlMeasSh) (modeField s.ctrlMeasSh) }))) ∧
      (v.toNat ≤ 5 → exec (.setOsrsP v) s = .next (respond .busError 0 0
        (onBus 1 [.write 0xF4 (packCtrl (osrsTField s.ctrlMeasSh) v (modeField s.ctrlMeasSh)) false]
          { s with ctrlMeasSh := packCtrl (osrsTField s.ctrlMeasSh) v (modeField s.ctrlMeasSh) }))) ∧
      (v.toNat ≤ 7 → exec (.setStandby v) s = .next (respond .busError 0 0
        (onBus 1 [.write 0xF5 (packConfig v (filterField s.configSh)) false]
          { s with configSh := packConfig v (filterField s.configSh) }))) ∧
      (v.toNat ≤ 4 → exec (.setFilter v) s = .next (respond .busError 0 0
        (onBus 1 [.write 0xF5 (packConfig (standbyField s.configSh) v) false]
          { s with configSh := packConfig (standbyField s.configSh) v })))

/-- 60_exceptions R142: outside its legal set a setter's operand raises ConfigurationError before any bus write and
before the shadow changes; every register stays as it was. -/
def Obligations.IllegalSetterValueRejected : Prop :=
  ∀ (s : State) (v : Byte), s.drv ≠ .uninit →
    (¬(v.toNat = 0 ∨ v.toNat = 1 ∨ v.toNat = 3) →
        exec (.setMode v) s = .next (respond .configurationError 0 0 s)) ∧
      (5 < v.toNat → exec (.setOsrsT v) s = .next (respond .configurationError 0 0 s)) ∧
      (5 < v.toNat → exec (.setOsrsP v) s = .next (respond .configurationError 0 0 s)) ∧
      (7 < v.toNat → exec (.setStandby v) s = .next (respond .configurationError 0 0 s)) ∧
      (4 < v.toNat → exec (.setFilter v) s = .next (respond .configurationError 0 0 s))

/-- 41_configuration R89 to R93: a getter answers its slice of the shadow, zero-extended, and changes no register. -/
def Obligations.GettersReportFields : Prop :=
  ∀ s : State, s.drv ≠ .uninit →
    exec .getMode s = .next (respond .ok (BitVec.ofNat 64 (s.ctrlMeasSh.toNat % 4)) 0 s) ∧
      exec .getOsrsT s = .next (respond .ok (BitVec.ofNat 64 (s.ctrlMeasSh.toNat / 32)) 0 s) ∧
      exec .getOsrsP s = .next (respond .ok (BitVec.ofNat 64 (s.ctrlMeasSh.toNat / 4 % 8)) 0 s) ∧
      exec .getStandby s = .next (respond .ok (BitVec.ofNat 64 (s.configSh.toNat / 32)) 0 s) ∧
      exec .getFilter s = .next (respond .ok (BitVec.ofNat 64 (s.configSh.toNat / 4 % 8)) 0 s)

/-- 41_configuration R94: after a setter with a legal value, whether it ended OK or BUS_ERROR, the matching getter
answers that value and the other four answer what they answered before; after a setter that ended
CONFIGURATION_ERROR or STATE_ERROR all five do. -/
def Obligations.SetThenGetReturnsValue : Prop :=
  let answers := fun u : State =>
    [responseOf .getMode u, responseOf .getOsrsT u, responseOf .getOsrsP u, responseOf .getStandby u,
      responseOf .getFilter u]
  let value := fun v : Byte => some (Response.mk .ok (zextLane v) 0)
  (∀ (s t : State) (v : Byte), s.drv ≠ .uninit →
      (legalMode v = true → exec (.setMode v) s = .next t → answers t = (answers s).set 0 (value v)) ∧
        (legalOsrs v = true → exec (.setOsrsT v) s = .next t → answers t = (answers s).set 1 (value v)) ∧
        (legalOsrs v = true → exec (.setOsrsP v) s = .next t → answers t = (answers s).set 2 (value v)) ∧
        (legalStandby v = true → exec (.setStandby v) s = .next t → answers t = (answers s).set 3 (value v)) ∧
        (legalFilter v = true → exec (.setFilter v) s = .next t → answers t = (answers s).set 4 (value v))) ∧
    (∀ (i : Instr) (s t : State) (r : Response), isSetter i = true → exec i s = .next t → t.rsp = some r →
      r.status = .configurationError ∨ r.status = .stateError → answers t = answers s)

/-! ## The engine -/

/-- 42_compensation R101, R103: `t_fine` with every shift written as a floor division, for all integers. -/
def Obligations.FineTemperatureFormula : Prop :=
  ∀ T d1 d2 d3 : Int,
    tFineOf T d1 d2 d3 =
      (T / 8 - 2 * d1) * d2 / 2048 + (T / 16 - d1) * (T / 16 - d1) / 4096 * d3 / 16384

/-- 42_compensation R104: the bounds of every intermediate over the whole domain of R114. -/
def Obligations.TemperaturePipelineBounds : Prop :=
  ∀ T d1 d2 d3 : Int,
    0 ≤ T → T ≤ 1048575 → 0 ≤ d1 → d1 ≤ 65535 → -32768 ≤ d2 → d2 ≤ 65535 → -32768 ≤ d3 → d3 ≤ 65535 →
      let a := T / 8 - 2 * d1
      let m1 := a * d2
      let var1 := m1 / 2048
      let b := T / 16 - d1
      let sq := b * b
      let sh := sq / 4096
      let m2 := sh * d3
      let var2 := m2 / 16384
      (-131070 ≤ a ∧ a ≤ 131071) ∧ (-8589672450 ≤ m1 ∧ m1 ≤ 8589737985) ∧ (-4194177 ≤ var1 ∧ var1 ≤ 4194208) ∧
        (-65535 ≤ b ∧ b ≤ 65535) ∧ (0 ≤ sq ∧ sq ≤ 4294836225) ∧ (0 ≤ sh ∧ sh ≤ 1048544) ∧
        (-34358689792 ≤ m2 ∧ m2 ≤ 68716331040) ∧ (-2097088 ≤ var2 ∧ var2 ≤ 4194112) ∧
        (-6291265 ≤ tFineOf T d1 d2 d3 ∧ tFineOf T d1 d2 d3 ≤ 8388320) ∧
        (-122876 ≤ centiDegrees (tFineOf T d1 d2 d3) ∧ centiDegrees (tFineOf T d1 d2 d3) ≤ 163834)

/-- 00_scope R5, R7 (decision D8, log entry 10): every addition, subtraction, multiplication and division of finite
operands (the divisor not zero) whose exact result is below `2^1023` in magnitude returns a finite number, the exact
result rounded once, to nearest, ties to even. -/
def Obligations.FloatOperationsRoundOnce : Prop :=
  ∀ (x y : F64) (vx vy : ℚ), f64Value x = some vx → f64Value y = some vy →
    (|vx + vy| < 2 ^ 1023 → F64Finite (fadd x y) ∧ RoundedFrom (vx + vy) (fadd x y)) ∧
      (|vx - vy| < 2 ^ 1023 → F64Finite (fsub x y) ∧ RoundedFrom (vx - vy) (fsub x y)) ∧
      (|vx * vy| < 2 ^ 1023 → F64Finite (fmul x y) ∧ RoundedFrom (vx * vy) (fmul x y)) ∧
      (vy ≠ 0 → |vx / vy| < 2 ^ 1023 → F64Finite (fdiv x y) ∧ RoundedFrom (vx / vy) (fdiv x y))

/-- 42_compensation R108: converting an integer below `2^24` in magnitude is exact. -/
def Obligations.IntegerConversionExact : Prop :=
  ∀ z : Int, -2 ^ 24 < z → z < 2 ^ 24 → f64Value (intToF z) = some (z : ℚ)

/-- 42_compensation R102: `c` is the floor of `(5 * t_fine + 128) / 256`, and the temperature is `c / 100` correctly
rounded, for every `t_fine` that COMP_T can return (R104). -/
def Obligations.TemperatureIsRoundedHundredths : Prop :=
  ∀ tFine : Int, -6291265 ≤ tFine → tFine ≤ 8388320 →
    centiDegrees tFine = (5 * tFine + 128) / 256 ∧
      RoundedFrom ((centiDegrees tFine : ℚ) / 100) (tempOf tFine)

/-- 42_compensation R106, R107 lines 21 to 36: the pressure is exactly `+0.0` when the divisor is a zero of either sign,
whatever the other inputs are; with any other divisor, however small, it is what lines 22 to 36 compute. -/
def Obligations.ZeroDivisorGivesZeroPressure : Prop :=
  ∀ P tFine p1 p2 p3 p4 p5 p6 p7 p8 p9 : Int,
    let v1 := presV1 tFine
    let v1c := presDivisor v1 p1 p2 p3
    (f64Value v1c = some 0 → compP P tFine p1 p2 p3 p4 p5 p6 p7 p8 p9 = 0#64) ∧
      (f64Value v1c ≠ some 0 →
        compP P tFine p1 p2 p3 p4 p5 p6 p7 p8 p9 =
          let x17 := fsub (fsub (intToF 1048576) (intToF P)) (fdiv (presV2 v1 p4 p5 p6) (intToF 4096))
          let q := fdiv (fmul x17 (intToF 6250)) v1c
          let w1 := fdiv (fmul (fmul (intToF p9) q) q) (intToF 2147483648)
          let w2 := fdiv (fmul q (intToF p8)) (intToF 32768)
          let x24 := fdiv (fadd (fadd w1 w2) (intToF p7)) (intToF 16)
          fdiv (fadd q x24) (intToF 100))

/-- 42_compensation R107 lines 1 to 20 (the order is the spec's decision D8): `v1`, `v2` and the divisor `v1c`, one
`FLOAT` operation a line. -/
def Obligations.PressureLinesBeforeTheTest : Prop :=
  ∀ tFine p1 p2 p3 p4 p5 p6 : Int,
    let v1 := fsub (fdiv (intToF tFine) (intToF 2)) (intToF 64000)
    let x4 := fdiv (fmul (fmul v1 v1) (intToF p6)) (intToF 32768)
    let x6 := fmul (fmul v1 (intToF p5)) (intToF 2)
    let x11 := fdiv (fmul (fmul (intToF p3) v1) v1) (intToF 524288)
    let v1b := fdiv (fadd x11 (fmul (intToF p2) v1)) (intToF 524288)
    presV1 tFine = v1 ∧
      presV2 v1 p4 p5 p6 = fadd (fdiv (fadd x4 x6) (intToF 4)) (fmul (intToF p4) (intToF 65536)) ∧
      presDivisor v1 p1 p2 p3 = fmul (fadd (intToF 1) (fdiv v1b (intToF 32768))) (intToF p1)

/-- 42_compensation R106, 60_exceptions R146: with `p1 = 0` an UPDATE whose two transactions complete answers OK with
the pressure `+0.0` and caches it, whatever the other coefficients and the data bytes are. -/
def Obligations.UpdateWithP1ZeroAnswersZeroPressure : Prop :=
  ∀ (s : State) (b : List Byte), s.drv = .ready → s.trim.p1 = 0 → writeDone (answerAt s 0) = true →
    readResult 8 (answerAt s 1) = some b →
      ∃ t temp, exec .update s = .next t ∧ t.rsp = some ⟨.ok, temp, 0⟩ ∧ t.readingP = 0 ∧ t.readingValid = true ∧
        t.drv = .ready

/-- 42_compensation R109: no infinity and no NaN. Wider than the rule, which speaks of the domain of R114: for all raw
codes and every content of the 17-bit coefficient registers the engine returns finite numbers. -/
def Obligations.EngineResultsFinite : Prop :=
  ∀ (T P : Raw20) (t : TrimTable), F64Finite (compensate T P t).1 ∧ F64Finite (compensate T P t).2

/-! ## The driver -/

/-- 43_driver R121: INIT in UNINIT, both reads completing: the two reads in order and no write, then one commit of
identification, coefficients, default configuration, no reading, READY. -/
def Obligations.InitLoadsTableAndDefaults : Prop :=
  ∀ (s : State) (id blk : List Byte), s.drv = .uninit → readResult 2 (answerAt s 0) = some id →
    readResult 24 (answerAt s 1) = some blk →
      exec .init s = .next (respond .ok 0 0
        (onBus 2 [.read 0xD0 2 (some id), .read 0x88 24 (some blk)]
          { s with
            drv := .ready, trim := decodeTrim rebaseMask blk, trimValid := true, ctrlMeasSh := 0x25,
            configSh := 0x00, readingValid := false, id0 := id.getD 0 0, id1 := id.getD 1 0 }))

/-- 43_driver R121, 60_exceptions R148, 40_trimming R76: INIT whose first read fails makes no second; INIT whose second
read fails keeps nothing of the first; either way every register is unchanged and the status is BUS_ERROR. -/
def Obligations.FailedInitChangesNoRegister : Prop :=
  ∀ s : State, s.drv = .uninit →
    (readResult 2 (answerAt s 0) = none →
        exec .init s = .next (respond .busError 0 0 (onBus 1 [.read 0xD0 2 none] s))) ∧
      (∀ id, readResult 2 (answerAt s 0) = some id → readResult 24 (answerAt s 1) = none →
        exec .init s = .next (respond .busError 0 0
          (onBus 2 [.read 0xD0 2 (some id), .read 0x88 24 none] s)))

/-- 43_driver R122, 42_compensation R100, R111: UPDATE in READY, both transactions completing: the trigger write of the
shadow, the wait, the data read; then COMPENSATE, which is COMP_T of `RAW_T` and COMP_P of `RAW_P` with that `t_fine`,
the raw codes read unsigned and the coefficients signed; this pair is cached and answered, and the driver is READY. -/
def Obligations.UpdateCachesAndAnswersReading : Prop :=
  ∀ (s : State) (b : List Byte), s.drv = .ready → writeDone (answerAt s 0) = true →
    readResult 8 (answerAt s 1) = some b →
      let raw := assemble b
      let c := s.trim
      let tFine := tFineOf raw.rawT.toNat c.d1.toInt c.d2.toInt c.d3.toInt
      let temp := tempOf tFine
      let press := compP raw.rawP.toNat tFine c.p1.toInt c.p2.toInt c.p3.toInt c.p4.toInt c.p5.toInt c.p6.toInt
        c.p7.toInt c.p8.toInt c.p9.toInt
      compensate raw.rawT raw.rawP c = (temp, press) ∧
        exec .update s = .next (respond .ok temp press
          (onBus 2 [.write 0xF4 s.ctrlMeasSh true, .wait Config.settleDelay, .read 0xF7 8 (some b)]
            { s with readingT := temp, readingP := press, readingValid := true, drv := .ready }))

/-- 43_driver R122, 60_exceptions R148: a failed trigger write ends UPDATE with no wait and no read; a failed data read
ends it after both; either way every register, the old reading among them, is unchanged. -/
def Obligations.FailedUpdateKeepsReading : Prop :=
  ∀ s : State, s.drv = .ready →
    (writeDone (answerAt s 0) = false →
        exec .update s = .next (respond .busError 0 0 (onBus 1 [.write 0xF4 s.ctrlMeasSh false] s))) ∧
      (writeDone (answerAt s 0) = true → readResult 8 (answerAt s 1) = none →
        exec .update s = .next (respond .busError 0 0
          (onBus 2 [.write 0xF4 s.ctrlMeasSh true, .wait Config.settleDelay, .read 0xF7 8 none] s)))

/-- 43_driver R123: the raw codes of a data block. The byte significance is what the spec supplies from general
knowledge (its decision D11, log entry 9). -/
def Obligations.RawCodesOfDataBlock : Prop :=
  ∀ b0 b1 b2 b3 b4 b5 b6 b7 : Byte,
    (assemble [b0, b1, b2, b3, b4, b5, b6, b7]).rawP.toNat = 4096 * b0.toNat + 16 * b1.toNat + b2.toNat / 16 ∧
      (assemble [b0, b1, b2, b3, b4, b5, b6, b7]).rawT.toNat = 4096 * b3.toNat + 16 * b4.toNat + b5.toNat / 16 ∧
      (assemble [b0, b1, b2, b3, b4, b5, b6, b7]).rawH.toNat = 256 * b6.toNat + b7.toNat

/-- 43_driver R124: two runs of UPDATE that differ only in the humidity bytes end in the same state and give the same
response (the bus record, which holds the bytes read, apart). -/
def Obligations.HumidityBytesInfluenceNothing : Prop :=
  ∀ (s t t' : State) (a : BusAnswer) (b0 b1 b2 b3 b4 b5 b6 b7 b6' b7' : Byte) (rest : List BusAnswer),
    exec .update { s with script := a :: .complete [b0, b1, b2, b3, b4, b5, b6, b7] :: rest } = .next t →
      exec .update { s with script := a :: .complete [b0, b1, b2, b3, b4, b5, b6', b7'] :: rest } = .next t' →
        t'.rsp = t.rsp ∧ SameRegisters t t' ∧ t'.busy = t.busy ∧ t'.cmdIndex = t.cmdIndex ∧
          t'.busCount = t.busCount

/-- 43_driver R125: RESET in READY writes 0xB6 to 0xE0 and nothing else, and changes no register, whether the write
completes (OK) or fails (BUS_ERROR). -/
def Obligations.ResetCommandWritesResetWord : Prop :=
  ∀ s : State, s.drv = .ready →
    (writeDone (answerAt s 0) = true →
        exec .reset s = .next (respond .ok 0 0 (onBus 1 [.write 0xE0 0xB6 true] s))) ∧
      (writeDone (answerAt s 0) = false →
        exec .reset s = .next (respond .busError 0 0 (onBus 1 [.write 0xE0 0xB6 false] s)))

/-- 43_driver R126, R127: with a cached reading the accessors answer it and change no register. -/
def Obligations.AccessorsAnswerCachedReading : Prop :=
  ∀ s : State, s.drv ≠ .uninit → s.readingValid = true →
    exec .getTemperature s = .next (respond .ok s.readingT 0 s) ∧
      exec .getPressure s = .next (respond .ok s.readingP 0 s)

/-- 60_exceptions R144: NoValue from GET_TEMPERATURE and GET_PRESSURE while there is no reading, and from GET_HUMIDITY
always (the driver not UNINIT, whose StateError comes first, R147); nothing changes. -/
def Obligations.NoValueAnswers : Prop :=
  ∀ s : State, s.drv ≠ .uninit →
    (s.readingValid = false → exec .getTemperature s = .next (respond .noValue 0 0 s)) ∧
      (s.readingValid = false → exec .getPressure s = .next (respond .noValue 0 0 s)) ∧
      exec .getHumidity s = .next (respond .noValue 0 0 s)

/-- 43_driver R129: GET_ID answers the two identification bytes, `ID[0]` low, and changes no register. -/
def Obligations.GetIdReturnsBothBytes : Prop :=
  ∀ s : State, s.drv ≠ .uninit →
    exec .getId s = .next (respond .ok (BitVec.ofNat 64 (s.id0.toNat + 256 * s.id1.toNat)) 0 s)

/-! ## Whole-machine rules -/

/-- 60_exceptions R143 (the spec's decision D12): in UNINIT every command except INIT, and in READY INIT, answers
STATE_ERROR, changes nothing and makes no bus access. -/
def Obligations.StateErrorChangesNothing : Prop :=
  ∀ (i : Instr) (s : State), i.wf = true →
    (s.drv = .uninit ∧ i ≠ .init) ∨ (s.drv = .ready ∧ i = .init) →
      exec i s = .next (respond .stateError 0 0 s)

/-- 60_exceptions R147 (the order the spec decides, D22): outside MEASURING, which no command observes (10_state R11),
one command reports one status, the first of StateError, ConfigurationError or NoValue, and BusError whose cause
holds, and OK where none does. (IllegalCommand comes before any command is chosen: IllegalWordChangesNothing.) -/
def Obligations.StatusPriority : Prop :=
  ∀ (i : Instr) (s t : State), i.wf = true → s.drv ≠ .measuring → exec i s = .next t →
    ∃ r, t.rsp = some r ∧
      (StateErrorDue i s → r.status = .stateError) ∧
      (¬StateErrorDue i s → setterRejects i = true → r.status = .configurationError) ∧
      (¬StateErrorDue i s → NoValueDue i s → r.status = .noValue) ∧
      (¬StateErrorDue i s → setterRejects i = false → ¬NoValueDue i s →
        r.status = if (t.trace.drop s.trace.length).any BusEvent.failed then .busError else .ok)

/-- 60_exceptions R141: a command ends BUS_ERROR exactly when its last bus event is a transaction that failed; it makes
no bus access after a failed one, so it neither retries nor goes on. -/
def Obligations.BusErrorEndsCommand : Prop :=
  ∀ (i : Instr) (s t : State), exec i s = .next t →
    ∃ (evs : List BusEvent) (r : Response), t.trace = s.trace ++ evs ∧ t.rsp = some r ∧
      (∀ ev ∈ evs.dropLast, ev.failed = false) ∧
      (r.status = .busError ↔ ∃ ev, evs.getLast? = some ev ∧ ev.failed = true)

/-- 43_driver R120: the transitions of DRV_STATE over one whole command. -/
def Obligations.DriverStateTransitions : Prop :=
  ∀ (i : Instr) (s t : State), exec i s = .next t →
    (s.drv = .uninit → t.drv = .ready ∧ i = .init ∧ (∃ r, t.rsp = some r ∧ r.status = .ok) ∨
        t.drv = .uninit ∧ (∃ r, t.rsp = some r ∧ r.status ≠ .ok)) ∧
      (s.drv = .ready → t.drv = .ready)

/-- 60_exceptions R148: after a command that ended with an error every register is unchanged, but for the shadow of a
setter that ended BUS_ERROR: CTRL_MEAS_SH of SET_MODE, SET_OSRS_T and SET_OSRS_P, CONFIG_SH of SET_STANDBY and
SET_FILTER. -/
def Obligations.ErrorsLeaveRegistersUnchanged : Prop :=
  ∀ (i : Instr) (s t : State) (r : Response), exec i s = .next t → t.rsp = some r → r.status ≠ .ok →
    SameRegisters s t ∨
      (r.status = .busError ∧ (∃ v, i = .setMode v ∨ i = .setOsrsT v ∨ i = .setOsrsP v) ∧
        SameRegisters { s with ctrlMeasSh := t.ctrlMeasSh } t) ∨
      (r.status = .busError ∧ (∃ v, i = .setStandby v ∨ i = .setFilter v) ∧
        SameRegisters { s with configSh := t.configSh } t)

/-- 43_driver R131: only UPDATE produces a reading: any other command keeps the reading registers, and leaves
READING_VALID as it was or clears it. -/
def Obligations.OnlyUpdateProducesReadings : Prop :=
  ∀ (i : Instr) (s t : State), exec i s = .next t → i ≠ .update →
    t.readingT = s.readingT ∧ t.readingP = s.readingP ∧ (t.readingValid = true → s.readingValid = true)

/-- 20_memory R31, R32, R34, R39, R41; 43_driver R130: a command appends to the bus only accesses of the register map and
the wait, none of them abandoned; at most two are transactions and at most one is a wait, and it takes exactly one
answer of the oracle for each transaction. -/
def Obligations.BusAccessesFollowRegisterMap : Prop :=
  ∀ (i : Instr) (s t : State), exec i s = .next t →
    ∃ (n : Nat) (evs : List BusEvent), t.trace = s.trace ++ evs ∧ (∀ ev ∈ evs, ev.allowed = true) ∧
      (∀ ev ∈ evs, (∀ addr k, ev ≠ .readAbandoned addr k) ∧ (∀ addr v, ev ≠ .writeAbandoned addr v) ∧
        ∀ delay, ev ≠ .waitAbandoned delay) ∧
      (evs.filter BusEvent.onTransport).length = n ∧ n ≤ 2 ∧
      (evs.filter fun ev => !ev.onTransport) ∈ [[], [.wait Config.settleDelay]] ∧ t.script = s.script.drop n ∧
      t.busCount = s.busCount + n

/-- 20_memory R31, R32, R33 (decision D20): what MemRead and MemWrite make of the oracle's answer. `n` bytes are yielded
as they are, in their order; fewer bytes, or BusError, yield nothing; a write completes unless the answer is BusError.
Of an answer longer than `n` the first `n` bytes are yielded, which is the model's choice (log entry 3). Either takes
the next answer and appears on the bus once, with its result. -/
def Obligations.BusAnswersReadAsGiven : Prop :=
  (∀ b : List Byte, readResult b.length (.complete b) = some b) ∧
    (∀ b extra : List Byte, readResult b.length (.complete (b ++ extra)) = some b) ∧
    (∀ (n : Nat) (b : List Byte), b.length < n → readResult n (.complete b) = none) ∧
    (∀ n : Nat, readResult n .busError = none) ∧
    (∀ b : List Byte, writeDone (.complete b) = true) ∧ writeDone .busError = false ∧
    (∀ (addr : Byte) (n : Nat) (s : State),
      memRead addr n s =
        (readResult n (answerAt s 0), onBus 1 [.read addr n (readResult n (answerAt s 0))] s)) ∧
    (∀ (addr v : Byte) (s : State),
      memWrite addr v s = (writeDone (answerAt s 0), onBus 1 [.write addr v (writeDone (answerAt s 0))] s))

/-- The frame of the commands that read (41_configuration R89 to R93; 43_driver R126 to R129; 40_trimming R77): nothing
but the response, BUSY and the command index changes, whatever the answer; in particular no bus access is made. -/
def Obligations.FrameOfReaders : Prop :=
  ∀ (i : Instr) (s t : State), isReader i = true → exec i s = .next t →
    t = { s with rsp := t.rsp, busy := t.busy, cmdIndex := t.cmdIndex }

/-- The frame of the setters (41_configuration R83): the three setters of CTRL_MEAS_SH change only their field of it,
the two of CONFIG_SH only their field of it; beside the response, BUSY, the command index and the bus nothing else
changes, and the bus gains at most the one write of that setter. -/
def Obligations.FrameOfSetters : Prop :=
  ∀ (s t : State) (v : Byte),
    let ctrlFrame := t = { s with
      ctrlMeasSh := t.ctrlMeasSh, rsp := t.rsp, busy := t.busy, cmdIndex := t.cmdIndex, script := t.script,
      busCount := t.busCount, trace := t.trace }
    let configFrame := t = { s with
      configSh := t.configSh, rsp := t.rsp, busy := t.busy, cmdIndex := t.cmdIndex, script := t.script,
      busCount := t.busCount, trace := t.trace }
    let wrote := fun (addr shadow : Byte) =>
      t.trace = s.trace ∨ t.trace = s.trace ++ [.write addr shadow true] ∨
        t.trace = s.trace ++ [.write addr shadow false]
    (exec (.setMode v) s = .next t → ctrlFrame ∧ wrote 0xF4 t.ctrlMeasSh ∧
        osrsTField t.ctrlMeasSh = osrsTField s.ctrlMeasSh ∧ osrsPField t.ctrlMeasSh = osrsPField s.ctrlMeasSh) ∧
      (exec (.setOsrsT v) s = .next t → ctrlFrame ∧ wrote 0xF4 t.ctrlMeasSh ∧
        osrsPField t.ctrlMeasSh = osrsPField s.ctrlMeasSh ∧ modeField t.ctrlMeasSh = modeField s.ctrlMeasSh) ∧
      (exec (.setOsrsP v) s = .next t → ctrlFrame ∧ wrote 0xF4 t.ctrlMeasSh ∧
        osrsTField t.ctrlMeasSh = osrsTField s.ctrlMeasSh ∧ modeField t.ctrlMeasSh = modeField s.ctrlMeasSh) ∧
      (exec (.setStandby v) s = .next t → configFrame ∧ wrote 0xF5 t.configSh ∧
        filterField t.configSh = filterField s.configSh) ∧
      (exec (.setFilter v) s = .next t → configFrame ∧ wrote 0xF5 t.configSh ∧
        standbyField t.configSh = standbyField s.configSh)

/-- The frame of the sequencer's commands (43_driver R121, R122, R125): UPDATE never changes the coefficients, the
shadows or the identification; RESET changes no register; INIT changes the reading registers never. -/
def Obligations.FrameOfSequencer : Prop :=
  ∀ s t : State,
    (exec .update s = .next t → t = { s with
        drv := t.drv, readingT := t.readingT, readingP := t.readingP, readingValid := t.readingValid, rsp := t.rsp,
        busy := t.busy, cmdIndex := t.cmdIndex, script := t.script, busCount := t.busCount, trace := t.trace }) ∧
      (exec .reset s = .next t → t = { s with
        rsp := t.rsp, busy := t.busy, cmdIndex := t.cmdIndex, script := t.script, busCount := t.busCount,
        trace := t.trace }) ∧
      (exec .init s = .next t → t = { s with
        drv := t.drv, trim := t.trim, trimValid := t.trimValid, ctrlMeasSh := t.ctrlMeasSh, configSh := t.configSh,
        readingValid := t.readingValid, id0 := t.id0, id1 := t.id1, rsp := t.rsp, busy := t.busy,
        cmdIndex := t.cmdIndex, script := t.script, busCount := t.busCount, trace := t.trace })
end

