-- ==== Sys2Proof/Laws/State.lean ====
section
/-! SUPPORT. What every field holds after every update of the state: one lemma a field and an update, each true by
definition. -/

-- One declaration after another: many at a time exhaust the threads of the joined compile.
set_option Elab.async false

namespace Sys2Proof.Machine

@[simp] theorem respond_drv (st : Status) (d0 d1 : Lane) (s : State) : (respond st d0 d1 s).drv = s.drv := rfl
@[simp] theorem respond_trim (st : Status) (d0 d1 : Lane) (s : State) : (respond st d0 d1 s).trim = s.trim := rfl
@[simp] theorem respond_trimValid (st : Status) (d0 d1 : Lane) (s : State) :
    (respond st d0 d1 s).trimValid = s.trimValid := rfl
@[simp] theorem respond_ctrlMeasSh (st : Status) (d0 d1 : Lane) (s : State) :
    (respond st d0 d1 s).ctrlMeasSh = s.ctrlMeasSh := rfl
@[simp] theorem respond_configSh (st : Status) (d0 d1 : Lane) (s : State) :
    (respond st d0 d1 s).configSh = s.configSh := rfl
@[simp] theorem respond_readingT (st : Status) (d0 d1 : Lane) (s : State) :
    (respond st d0 d1 s).readingT = s.readingT := rfl
@[simp] theorem respond_readingP (st : Status) (d0 d1 : Lane) (s : State) :
    (respond st d0 d1 s).readingP = s.readingP := rfl
@[simp] theorem respond_readingValid (st : Status) (d0 d1 : Lane) (s : State) :
    (respond st d0 d1 s).readingValid = s.readingValid := rfl
@[simp] theorem respond_id0 (st : Status) (d0 d1 : Lane) (s : State) : (respond st d0 d1 s).id0 = s.id0 := rfl
@[simp] theorem respond_id1 (st : Status) (d0 d1 : Lane) (s : State) : (respond st d0 d1 s).id1 = s.id1 := rfl
@[simp] theorem respond_busy (st : Status) (d0 d1 : Lane) (s : State) : (respond st d0 d1 s).busy = false := rfl
@[simp] theorem respond_rsp (st : Status) (d0 d1 : Lane) (s : State) :
    (respond st d0 d1 s).rsp = some ⟨st, d0, d1⟩ := rfl
@[simp] theorem respond_cmdIndex (st : Status) (d0 d1 : Lane) (s : State) :
    (respond st d0 d1 s).cmdIndex = s.cmdIndex + 1 := rfl
@[simp] theorem respond_host (st : Status) (d0 d1 : Lane) (s : State) : (respond st d0 d1 s).host = s.host := rfl
@[simp] theorem respond_script (st : Status) (d0 d1 : Lane) (s : State) :
    (respond st d0 d1 s).script = s.script := rfl
@[simp] theorem respond_busCount (st : Status) (d0 d1 : Lane) (s : State) :
    (respond st d0 d1 s).busCount = s.busCount := rfl
@[simp] theorem respond_trace (st : Status) (d0 d1 : Lane) (s : State) : (respond st d0 d1 s).trace = s.trace := rfl

@[simp] theorem transact_drv (ev : BusEvent) (s : State) : (transact ev s).drv = s.drv := rfl
@[simp] theorem transact_trim (ev : BusEvent) (s : State) : (transact ev s).trim = s.trim := rfl
@[simp] theorem transact_trimValid (ev : BusEvent) (s : State) : (transact ev s).trimValid = s.trimValid := rfl
@[simp] theorem transact_ctrlMeasSh (ev : BusEvent) (s : State) : (transact ev s).ctrlMeasSh = s.ctrlMeasSh := rfl
@[simp] theorem transact_configSh (ev : BusEvent) (s : State) : (transact ev s).configSh = s.configSh := rfl
@[simp] theorem transact_readingT (ev : BusEvent) (s : State) : (transact ev s).readingT = s.readingT := rfl
@[simp] theorem transact_readingP (ev : BusEvent) (s : State) : (transact ev s).readingP = s.readingP := rfl
@[simp] theorem transact_readingValid (ev : BusEvent) (s : State) :
    (transact ev s).readingValid = s.readingValid := rfl
@[simp] theorem transact_id0 (ev : BusEvent) (s : State) : (transact ev s).id0 = s.id0 := rfl
@[simp] theorem transact_id1 (ev : BusEvent) (s : State) : (transact ev s).id1 = s.id1 := rfl
@[simp] theorem transact_busy (ev : BusEvent) (s : State) : (transact ev s).busy = s.busy := rfl
@[simp] theorem transact_rsp (ev : BusEvent) (s : State) : (transact ev s).rsp = s.rsp := rfl
@[simp] theorem transact_cmdIndex (ev : BusEvent) (s : State) : (transact ev s).cmdIndex = s.cmdIndex := rfl
@[simp] theorem transact_host (ev : BusEvent) (s : State) : (transact ev s).host = s.host := rfl
@[simp] theorem transact_script (ev : BusEvent) (s : State) : (transact ev s).script = s.script.tail := rfl
@[simp] theorem transact_busCount (ev : BusEvent) (s : State) : (transact ev s).busCount = s.busCount + 1 := rfl
@[simp] theorem transact_trace (ev : BusEvent) (s : State) : (transact ev s).trace = s.trace ++ [ev] := rfl

@[simp] theorem waitSettle_drv (s : State) : (waitSettle s).drv = s.drv := rfl
@[simp] theorem waitSettle_trim (s : State) : (waitSettle s).trim = s.trim := rfl
@[simp] theorem waitSettle_trimValid (s : State) : (waitSettle s).trimValid = s.trimValid := rfl
@[simp] theorem waitSettle_ctrlMeasSh (s : State) : (waitSettle s).ctrlMeasSh = s.ctrlMeasSh := rfl
@[simp] theorem waitSettle_configSh (s : State) : (waitSettle s).configSh = s.configSh := rfl
@[simp] theorem waitSettle_readingT (s : State) : (waitSettle s).readingT = s.readingT := rfl
@[simp] theorem waitSettle_readingP (s : State) : (waitSettle s).readingP = s.readingP := rfl
@[simp] theorem waitSettle_readingValid (s : State) : (waitSettle s).readingValid = s.readingValid := rfl
@[simp] theorem waitSettle_id0 (s : State) : (waitSettle s).id0 = s.id0 := rfl
@[simp] theorem waitSettle_id1 (s : State) : (waitSettle s).id1 = s.id1 := rfl
@[simp] theorem waitSettle_busy (s : State) : (waitSettle s).busy = s.busy := rfl
@[simp] theorem waitSettle_rsp (s : State) : (waitSettle s).rsp = s.rsp := rfl
@[simp] theorem waitSettle_cmdIndex (s : State) : (waitSettle s).cmdIndex = s.cmdIndex := rfl
@[simp] theorem waitSettle_host (s : State) : (waitSettle s).host = s.host := rfl
@[simp] theorem waitSettle_script (s : State) : (waitSettle s).script = s.script := rfl
@[simp] theorem waitSettle_busCount (s : State) : (waitSettle s).busCount = s.busCount := rfl
@[simp] theorem waitSettle_trace (s : State) : (waitSettle s).trace = s.trace ++ [.wait Config.settleDelay] := rfl

@[simp] theorem writeCtrlMeasSh_drv (b : Byte) (s : State) : (writeCtrlMeasSh b s).drv = s.drv := rfl
@[simp] theorem writeCtrlMeasSh_trim (b : Byte) (s : State) : (writeCtrlMeasSh b s).trim = s.trim := rfl
@[simp] theorem writeCtrlMeasSh_trimValid (b : Byte) (s : State) :
    (writeCtrlMeasSh b s).trimValid = s.trimValid := rfl
@[simp] theorem writeCtrlMeasSh_ctrlMeasSh (b : Byte) (s : State) : (writeCtrlMeasSh b s).ctrlMeasSh = b := rfl
@[simp] theorem writeCtrlMeasSh_configSh (b : Byte) (s : State) : (writeCtrlMeasSh b s).configSh = s.configSh := rfl
@[simp] theorem writeCtrlMeasSh_readingT (b : Byte) (s : State) : (writeCtrlMeasSh b s).readingT = s.readingT := rfl
@[simp] theorem writeCtrlMeasSh_readingP (b : Byte) (s : State) : (writeCtrlMeasSh b s).readingP = s.readingP := rfl
@[simp] theorem writeCtrlMeasSh_readingValid (b : Byte) (s : State) :
    (writeCtrlMeasSh b s).readingValid = s.readingValid := rfl
@[simp] theorem writeCtrlMeasSh_id0 (b : Byte) (s : State) : (writeCtrlMeasSh b s).id0 = s.id0 := rfl
@[simp] theorem writeCtrlMeasSh_id1 (b : Byte) (s : State) : (writeCtrlMeasSh b s).id1 = s.id1 := rfl
@[simp] theorem writeCtrlMeasSh_busy (b : Byte) (s : State) : (writeCtrlMeasSh b s).busy = s.busy := rfl
@[simp] theorem writeCtrlMeasSh_rsp (b : Byte) (s : State) : (writeCtrlMeasSh b s).rsp = s.rsp := rfl
@[simp] theorem writeCtrlMeasSh_cmdIndex (b : Byte) (s : State) : (writeCtrlMeasSh b s).cmdIndex = s.cmdIndex := rfl
@[simp] theorem writeCtrlMeasSh_host (b : Byte) (s : State) : (writeCtrlMeasSh b s).host = s.host := rfl
@[simp] theorem writeCtrlMeasSh_script (b : Byte) (s : State) : (writeCtrlMeasSh b s).script = s.script := rfl
@[simp] theorem writeCtrlMeasSh_busCount (b : Byte) (s : State) : (writeCtrlMeasSh b s).busCount = s.busCount := rfl
@[simp] theorem writeCtrlMeasSh_trace (b : Byte) (s : State) : (writeCtrlMeasSh b s).trace = s.trace := rfl

@[simp] theorem writeConfigSh_drv (b : Byte) (s : State) : (writeConfigSh b s).drv = s.drv := rfl
@[simp] theorem writeConfigSh_trim (b : Byte) (s : State) : (writeConfigSh b s).trim = s.trim := rfl
@[simp] theorem writeConfigSh_trimValid (b : Byte) (s : State) : (writeConfigSh b s).trimValid = s.trimValid := rfl
@[simp] theorem writeConfigSh_ctrlMeasSh (b : Byte) (s : State) : (writeConfigSh b s).ctrlMeasSh = s.ctrlMeasSh := rfl
@[simp] theorem writeConfigSh_configSh (b : Byte) (s : State) : (writeConfigSh b s).configSh = b &&& 0xFC := rfl
@[simp] theorem writeConfigSh_readingT (b : Byte) (s : State) : (writeConfigSh b s).readingT = s.readingT := rfl
@[simp] theorem writeConfigSh_readingP (b : Byte) (s : State) : (writeConfigSh b s).readingP = s.readingP := rfl
@[simp] theorem writeConfigSh_readingValid (b : Byte) (s : State) :
    (writeConfigSh b s).readingValid = s.readingValid := rfl
@[simp] theorem writeConfigSh_id0 (b : Byte) (s : State) : (writeConfigSh b s).id0 = s.id0 := rfl
@[simp] theorem writeConfigSh_id1 (b : Byte) (s : State) : (writeConfigSh b s).id1 = s.id1 := rfl
@[simp] theorem writeConfigSh_busy (b : Byte) (s : State) : (writeConfigSh b s).busy = s.busy := rfl
@[simp] theorem writeConfigSh_rsp (b : Byte) (s : State) : (writeConfigSh b s).rsp = s.rsp := rfl
@[simp] theorem writeConfigSh_cmdIndex (b : Byte) (s : State) : (writeConfigSh b s).cmdIndex = s.cmdIndex := rfl
@[simp] theorem writeConfigSh_host (b : Byte) (s : State) : (writeConfigSh b s).host = s.host := rfl
@[simp] theorem writeConfigSh_script (b : Byte) (s : State) : (writeConfigSh b s).script = s.script := rfl
@[simp] theorem writeConfigSh_busCount (b : Byte) (s : State) : (writeConfigSh b s).busCount = s.busCount := rfl
@[simp] theorem writeConfigSh_trace (b : Byte) (s : State) : (writeConfigSh b s).trace = s.trace := rfl

@[simp] theorem accept_drv (rest : List HostInput) (s : State) : (accept rest s).drv = s.drv := rfl
@[simp] theorem accept_trim (rest : List HostInput) (s : State) : (accept rest s).trim = s.trim := rfl
@[simp] theorem accept_trimValid (rest : List HostInput) (s : State) : (accept rest s).trimValid = s.trimValid := rfl
@[simp] theorem accept_ctrlMeasSh (rest : List HostInput) (s : State) :
    (accept rest s).ctrlMeasSh = s.ctrlMeasSh := rfl
@[simp] theorem accept_configSh (rest : List HostInput) (s : State) : (accept rest s).configSh = s.configSh := rfl
@[simp] theorem accept_readingT (rest : List HostInput) (s : State) : (accept rest s).readingT = s.readingT := rfl
@[simp] theorem accept_readingP (rest : List HostInput) (s : State) : (accept rest s).readingP = s.readingP := rfl
@[simp] theorem accept_readingValid (rest : List HostInput) (s : State) :
    (accept rest s).readingValid = s.readingValid := rfl
@[simp] theorem accept_id0 (rest : List HostInput) (s : State) : (accept rest s).id0 = s.id0 := rfl
@[simp] theorem accept_id1 (rest : List HostInput) (s : State) : (accept rest s).id1 = s.id1 := rfl
@[simp] theorem accept_busy (rest : List HostInput) (s : State) : (accept rest s).busy = true := rfl
@[simp] theorem accept_rsp (rest : List HostInput) (s : State) : (accept rest s).rsp = none := rfl
@[simp] theorem accept_cmdIndex (rest : List HostInput) (s : State) : (accept rest s).cmdIndex = s.cmdIndex := rfl
@[simp] theorem accept_host (rest : List HostInput) (s : State) : (accept rest s).host = rest := rfl
@[simp] theorem accept_script (rest : List HostInput) (s : State) : (accept rest s).script = s.script := rfl
@[simp] theorem accept_busCount (rest : List HostInput) (s : State) : (accept rest s).busCount = s.busCount := rfl
@[simp] theorem accept_trace (rest : List HostInput) (s : State) : (accept rest s).trace = s.trace := rfl

@[simp] theorem hardwareReset_drv (s : State) : (hardwareReset s).drv = .uninit := rfl
@[simp] theorem hardwareReset_trim (s : State) : (hardwareReset s).trim = TrimTable.cleared := rfl
@[simp] theorem hardwareReset_trimValid (s : State) : (hardwareReset s).trimValid = false := rfl
@[simp] theorem hardwareReset_ctrlMeasSh (s : State) : (hardwareReset s).ctrlMeasSh = 0x25 := rfl
@[simp] theorem hardwareReset_configSh (s : State) : (hardwareReset s).configSh = 0x00 := rfl
@[simp] theorem hardwareReset_readingT (s : State) : (hardwareReset s).readingT = 0 := rfl
@[simp] theorem hardwareReset_readingP (s : State) : (hardwareReset s).readingP = 0 := rfl
@[simp] theorem hardwareReset_readingValid (s : State) : (hardwareReset s).readingValid = false := rfl
@[simp] theorem hardwareReset_id0 (s : State) : (hardwareReset s).id0 = 0 := rfl
@[simp] theorem hardwareReset_id1 (s : State) : (hardwareReset s).id1 = 0 := rfl
@[simp] theorem hardwareReset_busy (s : State) : (hardwareReset s).busy = false := rfl
@[simp] theorem hardwareReset_rsp (s : State) : (hardwareReset s).rsp = none := rfl
@[simp] theorem hardwareReset_cmdIndex (s : State) : (hardwareReset s).cmdIndex = s.cmdIndex := rfl
@[simp] theorem hardwareReset_host (s : State) : (hardwareReset s).host = s.host := rfl
@[simp] theorem hardwareReset_script (s : State) : (hardwareReset s).script = s.script := rfl
@[simp] theorem hardwareReset_busCount (s : State) : (hardwareReset s).busCount = s.busCount := rfl
@[simp] theorem hardwareReset_trace (s : State) : (hardwareReset s).trace = s.trace := rfl

@[simp] theorem onBus_drv (n : Nat) (evs : List BusEvent) (s : State) : (onBus n evs s).drv = s.drv := rfl
@[simp] theorem onBus_trim (n : Nat) (evs : List BusEvent) (s : State) : (onBus n evs s).trim = s.trim := rfl
@[simp] theorem onBus_trimValid (n : Nat) (evs : List BusEvent) (s : State) :
    (onBus n evs s).trimValid = s.trimValid := rfl
@[simp] theorem onBus_ctrlMeasSh (n : Nat) (evs : List BusEvent) (s : State) :
    (onBus n evs s).ctrlMeasSh = s.ctrlMeasSh := rfl
@[simp] theorem onBus_configSh (n : Nat) (evs : List BusEvent) (s : State) :
    (onBus n evs s).configSh = s.configSh := rfl
@[simp] theorem onBus_readingT (n : Nat) (evs : List BusEvent) (s : State) :
    (onBus n evs s).readingT = s.readingT := rfl
@[simp] theorem onBus_readingP (n : Nat) (evs : List BusEvent) (s : State) :
    (onBus n evs s).readingP = s.readingP := rfl
@[simp] theorem onBus_readingValid (n : Nat) (evs : List BusEvent) (s : State) :
    (onBus n evs s).readingValid = s.readingValid := rfl
@[simp] theorem onBus_id0 (n : Nat) (evs : List BusEvent) (s : State) : (onBus n evs s).id0 = s.id0 := rfl
@[simp] theorem onBus_id1 (n : Nat) (evs : List BusEvent) (s : State) : (onBus n evs s).id1 = s.id1 := rfl
@[simp] theorem onBus_busy (n : Nat) (evs : List BusEvent) (s : State) : (onBus n evs s).busy = s.busy := rfl
@[simp] theorem onBus_rsp (n : Nat) (evs : List BusEvent) (s : State) : (onBus n evs s).rsp = s.rsp := rfl
@[simp] theorem onBus_cmdIndex (n : Nat) (evs : List BusEvent) (s : State) :
    (onBus n evs s).cmdIndex = s.cmdIndex := rfl
@[simp] theorem onBus_host (n : Nat) (evs : List BusEvent) (s : State) : (onBus n evs s).host = s.host := rfl
@[simp] theorem onBus_script (n : Nat) (evs : List BusEvent) (s : State) :
    (onBus n evs s).script = s.script.drop n := rfl
@[simp] theorem onBus_busCount (n : Nat) (evs : List BusEvent) (s : State) :
    (onBus n evs s).busCount = s.busCount + n := rfl
@[simp] theorem onBus_trace (n : Nat) (evs : List BusEvent) (s : State) :
    (onBus n evs s).trace = s.trace ++ evs := rfl

@[simp] theorem present_drv (w : Word16) (s : State) : (present w s).drv = s.drv := rfl
@[simp] theorem present_trim (w : Word16) (s : State) : (present w s).trim = s.trim := rfl
@[simp] theorem present_trimValid (w : Word16) (s : State) : (present w s).trimValid = s.trimValid := rfl
@[simp] theorem present_ctrlMeasSh (w : Word16) (s : State) : (present w s).ctrlMeasSh = s.ctrlMeasSh := rfl
@[simp] theorem present_configSh (w : Word16) (s : State) : (present w s).configSh = s.configSh := rfl
@[simp] theorem present_readingT (w : Word16) (s : State) : (present w s).readingT = s.readingT := rfl
@[simp] theorem present_readingP (w : Word16) (s : State) : (present w s).readingP = s.readingP := rfl
@[simp] theorem present_readingValid (w : Word16) (s : State) : (present w s).readingValid = s.readingValid := rfl
@[simp] theorem present_id0 (w : Word16) (s : State) : (present w s).id0 = s.id0 := rfl
@[simp] theorem present_id1 (w : Word16) (s : State) : (present w s).id1 = s.id1 := rfl
@[simp] theorem present_busy (w : Word16) (s : State) : (present w s).busy = false := rfl
@[simp] theorem present_rsp (w : Word16) (s : State) : (present w s).rsp = s.rsp := rfl
@[simp] theorem present_cmdIndex (w : Word16) (s : State) : (present w s).cmdIndex = s.cmdIndex := rfl
@[simp] theorem present_host (w : Word16) (s : State) : (present w s).host = .cmd w :: s.host.tail := rfl
@[simp] theorem present_script (w : Word16) (s : State) : (present w s).script = s.script := rfl
@[simp] theorem present_busCount (w : Word16) (s : State) : (present w s).busCount = s.busCount := rfl
@[simp] theorem present_trace (w : Word16) (s : State) : (present w s).trace = s.trace := rfl

end Sys2Proof.Machine
end

