-- ==== Sys2Proof/Laws/Ops.lean ====
section
/-! SUPPORT. What each shared operation can do, said once: the bus primitives in terms of the oracle's answers and of
`onBus`, the setter, getter and accessor shapes as one case distinction each, the loader, an abandoned command. -/

-- One declaration after another: many at a time exhaust the threads of the joined compile.
set_option Elab.async false

namespace Sys2Proof.Machine

/-- Raising is responding with the exception's status and zero lanes (60_exceptions R140). -/
@[simp] theorem raise_eq (e : Exc) (s : State) : raise e s = respond e.status 0 0 s := rfl

/-- A response is all that `respond` leaves (30_encoding R53): the port, BUSY, the command index. -/
theorem respond_eq (st : Status) (d0 d1 : Lane) (s : State) :
    respond st d0 d1 s = { s with rsp := some ⟨st, d0, d1⟩, busy := false, cmdIndex := s.cmdIndex + 1 } := rfl

/-- The oracle's answers seen from a state depend on its script and its transaction count alone. -/
theorem answerAt_congr {s t : State} (hs : t.script = s.script) (hc : t.busCount = s.busCount) (k : Nat) :
    answerAt t k = answerAt s k := by
  simp only [answerAt, hs, hc]

theorem nextAnswer_eq (s : State) : nextAnswer s = answerAt s 0 := by
  cases h : s.script <;> simp [nextAnswer, answerAt, h]

/-- After `n` transactions the oracle's answers are those that came after them before. -/
@[simp] theorem answerAt_onBus (n : Nat) (evs : List BusEvent) (s : State) (k : Nat) :
    answerAt (onBus n evs s) k = answerAt s (n + k) := by
  simp [answerAt, List.getD_eq_getElem?_getD, Nat.add_assoc]

theorem transact_eq (ev : BusEvent) (s : State) : transact ev s = onBus 1 [ev] s := by
  simp [transact, onBus]

theorem waitSettle_eq (s : State) : waitSettle s = onBus 0 [.wait Config.settleDelay] s := by
  simp [waitSettle, onBus]

/-- Consecutive stretches of bus events join. -/
@[simp] theorem onBus_onBus (n m : Nat) (es fs : List BusEvent) (s : State) :
    onBus m fs (onBus n es s) = onBus (n + m) (es ++ fs) s := by
  simp [onBus, Nat.add_assoc]

/-- `MemRead` (20_memory R31): the oracle's next answer, exactly `n` bytes or nothing, and one event on the bus. -/
theorem memRead_eq (addr : Byte) (n : Nat) (s : State) :
    memRead addr n s =
      (readResult n (answerAt s 0), onBus 1 [.read addr n (readResult n (answerAt s 0))] s) := by
  simp only [memRead, nextAnswer_eq, transact_eq]

/-- `MemWrite` (20_memory R32): completion or failure, and one event on the bus. -/
theorem memWrite_eq (addr v : Byte) (s : State) :
    memWrite addr v s = (writeDone (answerAt s 0), onBus 1 [.write addr v (writeDone (answerAt s 0))] s) := by
  simp only [memWrite, nextAnswer_eq, transact_eq]

/-- A read that yields anything yields exactly `n` bytes (20_memory R31). -/
theorem readResult_length {n : Nat} {a : BusAnswer} {b : List Byte} (h : readResult n a = some b) :
    b.length = n := by
  cases a with
  | busError => simp [readResult] at h
  | complete bytes =>
    simp only [readResult] at h
    split at h
    · cases h; simpa using ‹n ≤ bytes.length›
    · cases h

/-- `LOAD_TRIM` (40_trimming R70, R76): one read; the decoded table, or nothing where the read failed. -/
theorem loadTrim_eq (s : State) :
    loadTrim s =
      ((readResult trimLen (answerAt s 0)).map (decodeTrim rebaseMask),
        onBus 1 [.read addrTrim trimLen (readResult trimLen (answerAt s 0))] s) := by
  simp only [loadTrim, memRead_eq]
  cases readResult trimLen (answerAt s 0) <;> rfl

/-- The setter template (41_configuration R83), for a store that leaves the driver state and the environment alone:
it refuses, or stores and writes the whole byte once, reporting the write's failure. -/
theorem setter_eq (legal : Bool) (store : State → State) (addr : Byte) (shadow : State → Byte) (s : State)
    (hs : (store s).script = s.script) (hc : (store s).busCount = s.busCount) :
    setter legal store addr shadow s =
      if s.drv = .uninit then respond .stateError 0 0 s
      else if legal = false then respond .configurationError 0 0 s
      else respond (if writeDone (answerAt s 0) then .ok else .busError) 0 0
        (onBus 1 [.write addr (shadow (store s)) (writeDone (answerAt s 0))] (store s)) := by
  simp only [setter, memWrite_eq, answerAt_congr hs hc, raise_eq]
  split
  · rfl
  split
  · rfl
  cases writeDone (answerAt s 0) <;> rfl

@[simp] theorem storeCtrlField_eq (shift width : Nat) (v : Byte) (s : State) :
    storeCtrlField shift width v s = { s with ctrlMeasSh := withField s.ctrlMeasSh shift width v } := rfl

@[simp] theorem storeConfigField_eq (shift width : Nat) (v : Byte) (s : State) :
    storeConfigField shift width v s = { s with configSh := withField s.configSh shift width v &&& 0xFC } := rfl

/-- A getter answers StateError in UNINIT and its field elsewhere (41_configuration R89 to R93). -/
theorem getter_eq (value : State → Byte) (s : State) :
    getter value s =
      if s.drv = .uninit then respond .stateError 0 0 s else respond .ok (zextLane (value s)) 0 s := rfl

/-- An accessor answers StateError, then NoValue, then the reading (43_driver R126, R127; 60_exceptions R147). -/
theorem accessor_eq (reading : State → F64) (s : State) :
    accessor reading s =
      if s.drv = .uninit then respond .stateError 0 0 s
      else if s.readingValid = false then respond .noValue 0 0 s
      else respond .ok (reading s) 0 s := rfl

/-- An abandoned command leaves the registers of a hardware reset and, on the bus, what it had made of its events
(70_reset R160). -/
theorem abandon_eq (k : Nat) (inside : Bool) (before after : State) :
    abandon k inside before after =
      hardwareReset (onBus ((madeBefore k inside (after.trace.drop before.trace.length)).filter
        BusEvent.isTransaction).length (madeBefore k inside (after.trace.drop before.trace.length)) before) := rfl

/-- An event cut short took no answer of the oracle. -/
@[simp] theorem cutShort_isTransaction (ev : BusEvent) : ev.cutShort.isTransaction = false := by
  cases ev <;> rfl

/-- The answers an abandoned command took are those of the events it had finished. -/
theorem madeBefore_answered (k : Nat) (inside : Bool) (evs : List BusEvent) :
    (madeBefore k inside evs).filter BusEvent.isTransaction = (evs.take k).filter BusEvent.isTransaction := by
  have hcut : (((evs.drop k).take 1).map BusEvent.cutShort).filter BusEvent.isTransaction = [] := by
    rw [List.filter_eq_nil_iff]
    intro ev hev
    obtain ⟨ev', -, rfl⟩ := List.mem_map.mp hev
    simp
  cases inside
  · simp [madeBefore]
  · rw [madeBefore, List.filter_append, if_pos rfl, hcut, List.append_nil]

/-- Whatever was before, a hardware reset leaves a safe state (70_reset R160; 10_state R24). -/
theorem hardwareReset_inv (s : State) : Inv (hardwareReset s) := by
  constructor <;> simp [TrimTable.cleared] <;> decide

/-- What the compensation of a data block leaves (43_driver R122 lines 6 to 10). -/
theorem finishUpdate_eq (b : List Byte) (s : State) :
    finishUpdate b s =
      respond .ok (compensate (assemble b).rawT (assemble b).rawP s.trim).1
        (compensate (assemble b).rawT (assemble b).rawP s.trim).2
        { s with
          readingT := (compensate (assemble b).rawT (assemble b).rawP s.trim).1
          readingP := (compensate (assemble b).rawT (assemble b).rawP s.trim).2
          readingValid := true
          drv := .ready } := rfl

/-- `COMPENSATE` is `COMP_T` and then `COMP_P` on its `t_fine` (42_compensation R100, R111). -/
theorem compensate_eq (T P : Raw20) (t : TrimTable) :
    compensate T P t =
      (tempOf (tFineOf T.toNat t.d1.toInt t.d2.toInt t.d3.toInt),
        compP P.toNat (tFineOf T.toNat t.d1.toInt t.d2.toInt t.d3.toInt) t.p1.toInt t.p2.toInt t.p3.toInt
          t.p4.toInt t.p5.toInt t.p6.toInt t.p7.toInt t.p8.toInt t.p9.toInt) := rfl

/-- Every command answers a next state: exec neither faults nor refuses (00_scope R9). -/
theorem exec_answers (i : Instr) (s : State) : ∃ t, exec i s = .next t := by
  cases i <;> exact ⟨_, rfl⟩

/-- Every accepted word answers a next state. -/
theorem runWord_answers (w : Word16) (s : State) : ∃ t, runWord w s = .next t := by
  simp only [runWord]
  split
  · exact exec_answers _ _
  · exact ⟨_, rfl⟩

end Sys2Proof.Machine
end

