-- ==== Sys2Proof/Laws/Commands.lean ====
section
/-! SUPPORT. What each command does, said once: its next state as a case distinction on the driver state and on the
oracle's answers; and one inversion lemma over all commands, `exec_cases`. -/

-- One declaration after another: many at a time exhaust the threads of the joined compile.
set_option Elab.async false

namespace Sys2Proof.Machine

/-- INIT (43_driver R121). -/
theorem exec_init_eq (s : State) :
    exec .init s = .next
      (if s.drv ≠ .uninit then respond .stateError 0 0 s
      else match readResult 2 (answerAt s 0) with
        | none => respond .busError 0 0 (onBus 1 [.read 0xD0 2 none] s)
        | some id =>
          match readResult 24 (answerAt s 1) with
          | none => respond .busError 0 0 (onBus 2 [.read 0xD0 2 (some id), .read 0x88 24 none] s)
          | some blk =>
            respond .ok 0 0
              (onBus 2 [.read 0xD0 2 (some id), .read 0x88 24 (some blk)]
                { s with
                  drv := .ready, trim := decodeTrim rebaseMask blk, trimValid := true, ctrlMeasSh := 0x25,
                  configSh := 0x00, readingValid := false, id0 := byteAt id 0, id1 := byteAt id 1 })) := by
  simp only [exec, execInit, memRead_eq, loadTrim_eq, raise_eq, addrId, idLen, addrTrim, trimLen]
  congr 1
  split
  · rfl
  cases readResult 2 (answerAt s 0) with
  | none => rfl
  | some id =>
    simp only [answerAt_onBus, onBus_onBus]
    cases readResult 24 (answerAt s (1 + 0)) <;> rfl

/-- UPDATE (43_driver R122). -/
theorem exec_update_eq (s : State) :
    exec .update s = .next
      (if s.drv ≠ .ready then respond .stateError 0 0 s
      else if writeDone (answerAt s 0) = false then
        respond .busError 0 0 (onBus 1 [.write 0xF4 s.ctrlMeasSh false] s)
      else match readResult 8 (answerAt s 1) with
        | none =>
          respond .busError 0 0
            (onBus 2 [.write 0xF4 s.ctrlMeasSh true, .wait Config.settleDelay, .read 0xF7 8 none] s)
        | some b =>
          respond .ok (compensate (assemble b).rawT (assemble b).rawP s.trim).1
            (compensate (assemble b).rawT (assemble b).rawP s.trim).2
            (onBus 2 [.write 0xF4 s.ctrlMeasSh true, .wait Config.settleDelay, .read 0xF7 8 (some b)]
              { s with
                drv := .ready
                readingT := (compensate (assemble b).rawT (assemble b).rawP s.trim).1
                readingP := (compensate (assemble b).rawT (assemble b).rawP s.trim).2
                readingValid := true })) := by
  simp only [exec, execUpdate, memRead_eq, memWrite_eq, waitSettle_eq, raise_eq, addrCtrlMeas, addrData, dataLen]
  congr 1
  split
  · rfl
  rename_i hready
  have hready : s.drv = .ready := by simpa using hready
  have hs : { s with drv := .ready } = s := by rw [← hready]
  have ha : ∀ k, answerAt { s with drv := .measuring } k = answerAt s k := fun _ => rfl
  simp only [ha]
  rcases hw : writeDone (answerAt s 0) with _ | _
  · rw [← hs]
    rfl
  · simp only [answerAt_onBus, ha, Bool.true_eq_false, if_false, Nat.add_zero]
    rcases readResult 8 (answerAt s 1) with _ | b
    · rw [← hs]
      simp [respond, onBus, Exc.status]
    · simp [finishUpdate_eq, respond, onBus]

/-- RESET (43_driver R125). -/
theorem exec_reset_eq (s : State) :
    exec .reset s = .next
      (if s.drv ≠ .ready then respond .stateError 0 0 s
      else respond (if writeDone (answerAt s 0) then .ok else .busError) 0 0
        (onBus 1 [.write 0xE0 0xB6 (writeDone (answerAt s 0))] s)) := by
  simp only [exec, execReset, memWrite_eq, raise_eq, addrReset, resetWord]
  congr 1
  split
  · rfl
  cases writeDone (answerAt s 0) <;> rfl

/-- A setter of CTRL_MEAS_SH (41_configuration R83), in the field of the given place and width. -/
theorem setter_ctrl_eq (legal : Bool) (shift width : Nat) (v : Byte) (s : State) :
    setter legal (storeCtrlField shift width v) addrCtrlMeas State.ctrlMeasSh s =
      if s.drv = .uninit then respond .stateError 0 0 s
      else if legal = false then respond .configurationError 0 0 s
      else respond (if writeDone (answerAt s 0) then .ok else .busError) 0 0
        (onBus 1 [.write 0xF4 (withField s.ctrlMeasSh shift width v) (writeDone (answerAt s 0))]
          { s with ctrlMeasSh := withField s.ctrlMeasSh shift width v }) :=
  setter_eq _ _ _ _ _ rfl rfl

/-- A setter of CONFIG_SH (41_configuration R83), in the field of the given place and width. -/
theorem setter_config_eq (legal : Bool) (shift width : Nat) (v : Byte) (s : State) :
    setter legal (storeConfigField shift width v) addrConfig State.configSh s =
      if s.drv = .uninit then respond .stateError 0 0 s
      else if legal = false then respond .configurationError 0 0 s
      else respond (if writeDone (answerAt s 0) then .ok else .busError) 0 0
        (onBus 1 [.write 0xF5 (withField s.configSh shift width v &&& 0xFC) (writeDone (answerAt s 0))]
          { s with configSh := withField s.configSh shift width v &&& 0xFC }) :=
  setter_eq _ _ _ _ _ rfl rfl

/-- A command that reads answers something and leaves everything else as it was. -/
theorem exec_reader (i : Instr) (s : State) (hi : isReader i = true) :
    ∃ st d0, exec i s = .next (respond st d0 0 s) ∧ (st ≠ .ok → d0 = 0) ∧ st ≠ .busError := by
  cases i <;> cases hi <;>
    (simp only [exec, execGetMode, execGetOsrsT, execGetOsrsP, execGetStandby, execGetFilter, execGetTemperature,
        execGetPressure, execGetHumidity, execGetId, execGetCoef, getter_eq, accessor_eq, raise_eq, Exc.status]
     repeat' split
     all_goals exact ⟨_, _, rfl, by simp⟩)

/-- What one command can do to the machine. -/
inductive CommandResult (i : Instr) (s : State) : State → Prop where
  /-- The command answered without touching the bus or a register. -/
  | answered (st : Status) (d0 : Lane) (h : st ≠ .ok → d0 = 0) (hb : st ≠ .busError)
      (hi : st = .ok → isReader i = true) :
      CommandResult i s (respond st d0 0 s)
  /-- INIT failed at one of its reads. -/
  | initFailed (evs : List BusEvent) (hi : i = .init) (hs : s.drv = .uninit)
      (he : evs = [.read 0xD0 2 none] ∨ ∃ id, evs = [.read 0xD0 2 (some id), .read 0x88 24 none]) :
      CommandResult i s (respond .busError 0 0 (onBus evs.length evs s))
  /-- INIT completed. -/
  | initDone (id blk : List Byte) (hi : i = .init) (hs : s.drv = .uninit) :
      CommandResult i s (respond .ok 0 0
        (onBus 2 [.read 0xD0 2 (some id), .read 0x88 24 (some blk)]
          { s with
            drv := .ready, trim := decodeTrim rebaseMask blk, trimValid := true, ctrlMeasSh := 0x25,
            configSh := 0x00, readingValid := false, id0 := byteAt id 0, id1 := byteAt id 1 }))
  /-- UPDATE failed at its write or at its read. -/
  | updateFailed (n : Nat) (evs : List BusEvent) (hi : i = .update) (hs : s.drv = .ready)
      (he : n = 1 ∧ evs = [.write 0xF4 s.ctrlMeasSh false] ∨
        n = 2 ∧ evs = [.write 0xF4 s.ctrlMeasSh true, .wait Config.settleDelay, .read 0xF7 8 none]) :
      CommandResult i s (respond .busError 0 0 (onBus n evs s))
  /-- UPDATE completed. -/
  | updateDone (b : List Byte) (temp press : F64) (hi : i = .update) (hs : s.drv = .ready) :
      CommandResult i s (respond .ok temp press
        (onBus 2 [.write 0xF4 s.ctrlMeasSh true, .wait Config.settleDelay, .read 0xF7 8 (some b)]
          { s with drv := .ready, readingT := temp, readingP := press, readingValid := true }))
  /-- RESET made its write. -/
  | resetWrote (done : Bool) (hi : i = .reset) (hs : s.drv = .ready) :
      CommandResult i s (respond (if done then .ok else .busError) 0 0 (onBus 1 [.write 0xE0 0xB6 done] s))
  /-- A setter of CTRL_MEAS_SH stored its field and made its write. -/
  | ctrlStored (done : Bool) (shift width : Nat) (v : Byte) (hs : s.drv ≠ .uninit)
      (hi : i = .setMode v ∧ legalMode v = true ∧ shift = 0 ∧ width = 2 ∨
        i = .setOsrsT v ∧ legalOsrs v = true ∧ shift = 5 ∧ width = 3 ∨
        i = .setOsrsP v ∧ legalOsrs v = true ∧ shift = 2 ∧ width = 3) :
      CommandResult i s (respond (if done then .ok else .busError) 0 0
        (onBus 1 [.write 0xF4 (withField s.ctrlMeasSh shift width v) done]
          { s with ctrlMeasSh := withField s.ctrlMeasSh shift width v }))
  /-- A setter of CONFIG_SH stored its field and made its write. -/
  | configStored (done : Bool) (shift width : Nat) (v : Byte) (hs : s.drv ≠ .uninit)
      (hi : i = .setStandby v ∧ legalStandby v = true ∧ shift = 5 ∧ width = 3 ∨
        i = .setFilter v ∧ legalFilter v = true ∧ shift = 2 ∧ width = 3) :
      CommandResult i s (respond (if done then .ok else .busError) 0 0
        (onBus 1 [.write 0xF5 (withField s.configSh shift width v &&& 0xFC) done]
          { s with configSh := withField s.configSh shift width v &&& 0xFC }))

/-- The inversion lemma: a command's next state is one of the results above. -/
theorem exec_cases {i : Instr} {s t : State} (h : exec i s = .next t) : CommandResult i s t := by
  have refuse : ∀ st : Status, st ≠ .ok ∧ st ≠ .busError → CommandResult i s (respond st 0 0 s) := fun st hst =>
    .answered st 0 (fun _ => rfl) hst.2 (fun h => absurd h hst.1)
  cases hr : isReader i with
  | true =>
    obtain ⟨st, d0, he, hz, hb⟩ := exec_reader i s hr
    rw [he] at h
    cases h
    exact .answered st d0 hz hb fun _ => hr
  | false =>
    cases i <;> cases hr
    case init.refl =>
      rw [exec_init_eq] at h
      cases h
      split
      · exact refuse _ (by decide)
      rename_i hs
      have hs : s.drv = .uninit := by simpa using hs
      split
      · exact .initFailed [.read 0xD0 2 none] rfl hs (.inl rfl)
      split
      · exact .initFailed [.read 0xD0 2 (some _), .read 0x88 24 none] rfl hs (.inr ⟨_, rfl⟩)
      · exact .initDone _ _ rfl hs
    case update.refl =>
      rw [exec_update_eq] at h
      cases h
      split
      · exact refuse _ (by decide)
      rename_i hs
      have hs : s.drv = .ready := by simpa using hs
      split
      · exact .updateFailed 1 _ rfl hs (.inl ⟨rfl, rfl⟩)
      split
      · exact .updateFailed 2 _ rfl hs (.inr ⟨rfl, rfl⟩)
      · exact .updateDone _ _ _ rfl hs
    case reset.refl =>
      rw [exec_reset_eq] at h
      cases h
      split
      · exact refuse _ (by decide)
      rename_i hs
      exact .resetWrote _ rfl (by simpa using hs)
    all_goals
      simp only [exec, execSetMode, execSetOsrsT, execSetOsrsP, execSetStandby, execSetFilter, setter_ctrl_eq,
        setter_config_eq] at h
      cases h
      split
      · exact refuse _ (by decide)
      rename_i hs
      split
      · exact refuse _ (by decide)
      rename_i hl
      have hl := Bool.eq_true_of_not_eq_false hl
      first
        | exact .ctrlStored _ _ _ _ hs (.inl ⟨rfl, hl, rfl, rfl⟩)
        | exact .ctrlStored _ _ _ _ hs (.inr (.inl ⟨rfl, hl, rfl, rfl⟩))
        | exact .ctrlStored _ _ _ _ hs (.inr (.inr ⟨rfl, hl, rfl, rfl⟩))
        | exact .configStored _ _ _ _ hs (.inl ⟨rfl, hl, rfl, rfl⟩)
        | exact .configStored _ _ _ _ hs (.inr ⟨rfl, hl, rfl, rfl⟩)

end Sys2Proof.Machine
end

