-- ==== Sys2Proof/Laws/Fields.lean ====
section
/-! SUPPORT. The fields of the configuration bytes and of the command word: what storing one field leaves in every
field (30_encoding R57; 41_configuration R82), as facts about bytes. -/

-- One declaration after another: many at a time exhaust the threads of the joined compile.
set_option Elab.async false

namespace Sys2Proof.Machine

theorem fieldOf_toNat (b : Byte) :
    (osrsTField b).toNat = b.toNat / 32 ∧ (osrsPField b).toNat = b.toNat / 4 % 8 ∧
      (modeField b).toNat = b.toNat % 4 ∧ (standbyField b).toNat = b.toNat / 32 ∧
      (filterField b).toNat = b.toNat / 4 % 8 := by
  revert b; decide +kernel

/-- Storing MODE (41_configuration R84). -/
theorem storeMode_fields : ∀ v : Byte, legalMode v = true → ∀ b : Byte,
    modeField (withField b 0 2 v) = v ∧ osrsTField (withField b 0 2 v) = osrsTField b ∧
      osrsPField (withField b 0 2 v) = osrsPField b := by
  decide +kernel

/-- Storing OSRS_T (41_configuration R85). -/
theorem storeOsrsT_fields : ∀ v : Byte, legalOsrs v = true → ∀ b : Byte,
    osrsTField (withField b 5 3 v) = v ∧ osrsPField (withField b 5 3 v) = osrsPField b ∧
      modeField (withField b 5 3 v) = modeField b := by
  decide +kernel

/-- Storing OSRS_P (41_configuration R86). -/
theorem storeOsrsP_fields : ∀ v : Byte, legalOsrs v = true → ∀ b : Byte,
    osrsPField (withField b 2 3 v) = v ∧ osrsTField (withField b 2 3 v) = osrsTField b ∧
      modeField (withField b 2 3 v) = modeField b := by
  decide +kernel

/-- Storing T_SB (41_configuration R87). -/
theorem storeStandby_fields : ∀ v : Byte, legalStandby v = true → ∀ b : Byte,
    standbyField (withField b 5 3 v &&& 0xFC) = v ∧ filterField (withField b 5 3 v &&& 0xFC) = filterField b ∧
      (withField b 5 3 v &&& 0xFC) &&& 0x03 = 0 := by
  decide +kernel

/-- Storing FILTER (41_configuration R88). -/
theorem storeFilter_fields : ∀ v : Byte, legalFilter v = true → ∀ b : Byte,
    filterField (withField b 2 3 v &&& 0xFC) = v ∧ standbyField (withField b 2 3 v &&& 0xFC) = standbyField b ∧
      (withField b 2 3 v &&& 0xFC) &&& 0x03 = 0 := by
  decide +kernel

/-- The two fields of a command word (30_encoding R50). -/
theorem opField_append (a b : Byte) : opField (a ++ b) = a := by
  apply BitVec.eq_of_toNat_eq
  have ha := a.isLt
  have hb := b.isLt
  simp only [opField, BitVec.extractLsb'_toNat, BitVec.toNat_append, Nat.shiftRight_eq_div_pow]
  rw [← Nat.shiftLeft_add_eq_or_of_lt hb, Nat.shiftLeft_eq]
  omega

theorem argField_append (a b : Byte) : argField (a ++ b) = b := by
  apply BitVec.eq_of_toNat_eq
  have ha := a.isLt
  have hb := b.isLt
  simp only [argField, BitVec.extractLsb'_toNat, BitVec.toNat_append, Nat.shiftRight_eq_div_pow]
  rw [← Nat.shiftLeft_add_eq_or_of_lt hb, Nat.shiftLeft_eq]
  omega

/-- A word is its two fields. -/
theorem append_fields (w : Word16) : opField w ++ argField w = w := by
  apply BitVec.eq_of_toNat_eq
  have hw := w.isLt
  have hb := (argField w).isLt
  simp only [BitVec.toNat_append]
  rw [← Nat.shiftLeft_add_eq_or_of_lt hb, Nat.shiftLeft_eq]
  simp only [opField, argField, BitVec.extractLsb'_toNat, Nat.shiftRight_eq_div_pow]
  omega

end Sys2Proof.Machine
end

