-- ==== Sys2Proof/Laws/Float.lean ====
section
/-! SUPPORT. Binary64 patterns as numbers: the number of a pattern built from its sign and magnitude, the grid every
finite pattern lies on, and the one rounding lemma, `roundedFrom_of_grid`: the pattern `roundTo64` builds is the exact
number rounded to nearest, ties to even. -/

-- One declaration after another: many at a time exhaust the threads of the joined compile.
set_option Elab.async false

namespace Sys2Proof.Machine

/-! ### Patterns -/

/-- The significand of a magnitude, the hidden bit of a normal number included. -/
def magMant (M : Nat) : Nat := if M < 2 ^ 52 then M else 2 ^ 52 + M % 2 ^ 52

/-- The exponent of a magnitude's last place. -/
def magExp (M : Nat) : Int := if M < 2 ^ 52 then -1074 else (M / 2 ^ 52 : Nat) - 1075

/-- The number of a finite magnitude. -/
def magValue (M : Nat) : ℚ := (magMant M : ℚ) * 2 ^ magExp M

/-- `± x`. -/
def signedRat (neg : Bool) (x : ℚ) : ℚ := if neg then -x else x

theorem signedRat_abs (neg : Bool) (x : ℚ) : |signedRat neg x| = |x| := by
  cases neg <;> simp [signedRat]

theorem signedInt_cast (neg : Bool) (m : Nat) : ((signedInt neg m : Int) : ℚ) = signedRat neg (m : ℚ) := by
  cases neg <;> simp [signedInt, signedRat]

theorem signedInt_mul (neg : Bool) (m : Nat) (e : Int) :
    ((signedInt neg m : Int) : ℚ) * 2 ^ e = signedRat neg ((m : ℚ) * 2 ^ e) := by
  cases neg <;> simp [signedInt, signedRat]

theorem magValue_nonneg (M : Nat) : 0 ≤ magValue M := by
  unfold magValue
  positivity

theorem magMant_lt (M : Nat) : magMant M < 2 ^ 53 := by
  unfold magMant
  split <;> omega

/-- The three fields of a pattern, from its number. -/
theorem f64_fields (x : F64) :
    f64Sign x = decide (2 ^ 63 ≤ x.toNat) ∧ f64Exp x = x.toNat % 2 ^ 63 / 2 ^ 52 ∧
      f64Frac x = x.toNat % 2 ^ 63 % 2 ^ 52 := by
  have hx := x.isLt
  refine ⟨?_, ?_, ?_⟩
  · simp [f64Sign, BitVec.msb_eq_decide]
  · simp only [f64Exp, BitVec.extractLsb'_toNat, Nat.shiftRight_eq_div_pow]
    omega
  · simp only [f64Frac, BitVec.extractLsb'_toNat, Nat.shiftRight_eq_div_pow]
    omega

/-- A finite pattern stands for the number of its magnitude, with its sign. -/
theorem f64Value_of_finite (x : F64) (h : x.toNat % 2 ^ 63 < infMagnitude) :
    f64Value x = some (signedRat (f64Sign x) (magValue (x.toNat % 2 ^ 63))) := by
  obtain ⟨-, he, hf⟩ := f64_fields x
  have hx := x.isLt
  generalize hM : x.toNat % 2 ^ 63 = M at *
  unfold infMagnitude at h
  have hne : ¬f64Exp x = 2047 := by omega
  simp only [f64Value, unpack, if_neg hne]
  by_cases h0 : M < 2 ^ 52
  · have : f64Exp x = 0 := by omega
    simp only [this, if_true, Option.some.injEq]
    rw [signedInt_mul, magValue, magMant, magExp, if_pos h0, if_pos h0, hf, Nat.mod_eq_of_lt h0]
  · have : ¬f64Exp x = 0 := by omega
    simp only [this, if_false, Option.some.injEq]
    rw [signedInt_mul, magValue, magMant, magExp, if_neg h0, if_neg h0, hf, he]

/-- A pattern with a number is finite. -/
theorem finite_of_f64Value {x : F64} {w : ℚ} (h : f64Value x = some w) : x.toNat % 2 ^ 63 < infMagnitude := by
  obtain ⟨-, he, hf⟩ := f64_fields x
  by_contra hc
  unfold infMagnitude at hc
  have hx := x.isLt
  have h1 : f64Exp x = 2047 := by omega
  simp only [f64Value, unpack, if_pos h1] at h
  split_ifs at h

theorem f64Finite_iff (x : F64) : F64Finite x ↔ x.toNat % 2 ^ 63 < infMagnitude := by
  obtain ⟨-, he, -⟩ := f64_fields x
  have hx := x.isLt
  unfold F64Finite infMagnitude
  omega

theorem signed_toNat (neg : Bool) (M : Nat) (h : M < 2 ^ 63) :
    (signed neg M).toNat % 2 ^ 63 = M ∧ f64Sign (signed neg M) = neg := by
  have hs := (f64_fields (signed neg M)).1
  have ht : (signed neg M).toNat = (if neg then 2 ^ 63 else 0) + M := by
    simp only [signed, BitVec.toNat_ofNat]
    cases neg <;> simp <;> omega
  rw [ht] at hs ⊢
  cases neg <;> simp_all

/-- The number of a pattern built from a sign and a finite magnitude. -/
theorem f64Value_signed (neg : Bool) (M : Nat) (h : M < infMagnitude) :
    f64Value (signed neg M) = some (signedRat neg (magValue M)) := by
  have h63 : M < 2 ^ 63 := by unfold infMagnitude at h; omega
  obtain ⟨h1, h2⟩ := signed_toNat neg M h63
  rw [f64Value_of_finite _ (by rw [h1]; exact h), h1, h2]

/-- Every finite number is `±` the number of a magnitude. -/
theorem f64Value_eq_some {x : F64} {w : ℚ} (h : f64Value x = some w) :
    ∃ neg M, M < infMagnitude ∧ w = signedRat neg (magValue M) := by
  have hf := finite_of_f64Value h
  rw [f64Value_of_finite x hf] at h
  exact ⟨_, _, hf, (Option.some.inj h).symm⟩

/-- The test of COMP_P (42_compensation R106): a pattern is a zero of either sign exactly when its number is 0. -/
theorem isZero_iff (x : F64) : isZero x = true ↔ f64Value x = some 0 := by
  have hz : isZero x = true ↔ x.toNat % 2 ^ 63 = 0 := by simp [isZero]
  rw [hz]
  constructor
  · intro h
    rw [f64Value_of_finite x (by unfold infMagnitude; omega), h]
    cases f64Sign x <;> simp [signedRat, magValue, magMant]
  · intro h
    rw [f64Value_of_finite x (finite_of_f64Value h)] at h
    have h0 : magValue (x.toNat % 2 ^ 63) = 0 := by
      cases hs : f64Sign x <;> simpa [signedRat, hs] using h
    have h1 : magMant (x.toNat % 2 ^ 63) = 0 := by
      rcases mul_eq_zero.mp h0 with h | h
      · exact_mod_cast h
      · exact absurd h (by positivity)
    unfold magMant at h1
    split at h1 <;> omega

/-! ### The grid -/

theorem two_zpow_pos (e : Int) : (0 : ℚ) < 2 ^ e := by positivity

/-- Every finite number is a multiple of `2^E`, or lies half a place or more below `2^52` places `2^E`. -/
theorem magValue_grid (M : Nat) (E : Int) (hE : -1074 ≤ E) :
    (∃ k : Nat, magValue M = k * 2 ^ E) ∨ (-1074 < E ∧ magValue M ≤ (2 ^ 52 - 1 / 2) * 2 ^ E) := by
  by_cases h : E ≤ magExp M
  · left
    refine ⟨magMant M * 2 ^ (magExp M - E).toNat, ?_⟩
    have : (2 : ℚ) ^ magExp M = 2 ^ (magExp M - E).toNat * 2 ^ E := by
      rw [← zpow_natCast, ← zpow_add₀ (by norm_num)]
      congr 1
      omega
    rw [magValue, this]
    push_cast
    ring
  · right
    have hlo : -1074 ≤ magExp M := by
      unfold magExp
      split <;> omega
    refine ⟨by omega, ?_⟩
    have hm : (magMant M : ℚ) ≤ 2 ^ 53 - 1 := by
      have := magMant_lt M
      have h2 : magMant M + 1 ≤ 2 ^ 53 := this
      have h3 : ((magMant M + 1 : Nat) : ℚ) ≤ ((2 ^ 53 : Nat) : ℚ) := by exact_mod_cast h2
      push_cast at h3
      linarith
    have he : (2 : ℚ) ^ magExp M ≤ 2 ^ E / 2 := by
      have : (2 : ℚ) ^ E / 2 = 2 ^ (E - 1) := by rw [zpow_sub₀ (by norm_num)]; norm_num
      rw [this]
      exact zpow_le_zpow_right₀ (by norm_num) (by omega)
    have hp := two_zpow_pos (magExp M)
    calc magValue M = magMant M * 2 ^ magExp M := rfl
      _ ≤ (2 ^ 53 - 1) * (2 ^ E / 2) := by
        apply mul_le_mul hm he hp.le
        norm_num
      _ = (2 ^ 52 - 1 / 2) * 2 ^ E := by ring

/-- The number of the magnitude that `roundMagnitude` builds from `q` places `2^E`. -/
theorem magValue_build (q : Nat) (E : Int) (hE : -1074 ≤ E) (hlo : E = -1074 ∨ 2 ^ 52 ≤ q) (hhi : q ≤ 2 ^ 53) :
    magValue ((E + 1074).toNat * 2 ^ 52 + q) = q * 2 ^ E := by
  obtain ⟨n, hn⟩ : ∃ n : Nat, E = (n : Int) - 1074 := ⟨(E + 1074).toNat, by omega⟩
  have hnE : (E + 1074).toNat = n := by omega
  rw [hnE]
  have key : ∀ M m : Nat, ∀ e : Int, magMant M = m → magExp M = e → magValue M = m * 2 ^ e := by
    rintro M m e rfl rfl
    rfl
  rcases Nat.lt_or_ge q (2 ^ 52) with h1 | h1
  · have hn0 : n = 0 := by omega
    subst hn0
    have hM : 0 * 2 ^ 52 + q = q := by omega
    rw [hM, hn]
    apply key
    · exact if_pos h1
    · exact if_pos h1
  · rcases Nat.lt_or_ge q (2 ^ 53) with h2 | h2
    · apply key
      · unfold magMant
        split <;> omega
      · unfold magExp
        split <;> omega
    · have hq : q = 2 ^ 53 := by omega
      have : ((q : Nat) : ℚ) * 2 ^ E = ((2 ^ 52 : Nat) : ℚ) * 2 ^ (E + 1) := by
        rw [hq, zpow_add₀ (by norm_num)]
        push_cast
        ring
      rw [this]
      apply key
      · unfold magMant
        split <;> omega
      · unfold magExp
        split <;> omega

/-! ### Rounding -/

/-- A number's nearest integer is at least as near as any other, and an even one where another is equally near. -/
theorem nearest_int (q k : Nat) (X : ℚ) (h : |(q : ℚ) - X| ≤ 1 / 2) (he : |(q : ℚ) - X| = 1 / 2 → q % 2 = 0) :
    |(q : ℚ) - X| ≤ |(k : ℚ) - X| ∧ (|(q : ℚ) - X| = |(k : ℚ) - X| → k ≠ q → q % 2 = 0) := by
  by_cases hk : k = q
  · subst hk
    exact ⟨le_refl _, fun _ h => absurd rfl h⟩
  · have h1 : 1 ≤ |(k : ℚ) - q| := by
      rcases Nat.lt_or_ge k q with hlt | hge
      · have : (k : ℚ) + 1 ≤ q := by exact_mod_cast hlt
        rw [abs_of_nonpos (by linarith)]
        linarith
      · have : (q : ℚ) + 1 ≤ k := by exact_mod_cast (by omega : q + 1 ≤ k)
        rw [abs_of_nonneg (by linarith)]
        linarith
    have h2 : |(k : ℚ) - q| ≤ |(k : ℚ) - X| + |(q : ℚ) - X| := by
      have h3 := abs_add_le ((k : ℚ) - X) (X - q)
      have h4 : (k : ℚ) - X + (X - q) = k - q := by ring
      rw [h4, abs_sub_comm X] at h3
      exact h3
    exact ⟨by linarith, fun heq _ => he (by linarith)⟩

/-- The rounding lemma. `X` places `2^E` (`X` at least 0), of which `q` is the nearest integer, ties to even: the
pattern of `q` places `2^E` is `± X * 2^E` rounded to nearest, ties to even, provided `E` is the place of 53
significant bits of `X` (or the least place there is) and the pattern is finite. -/
theorem roundedFrom_of_grid (neg : Bool) (X : ℚ) (q : Nat) (E : Int) (hE : -1074 ≤ E)
    (hlo : E = -1074 ∨ 2 ^ 52 ≤ X) (hX : 0 ≤ X) (hhi : X ≤ 2 ^ 53)
    (hq : |(q : ℚ) - X| ≤ 1 / 2) (heven : |(q : ℚ) - X| = 1 / 2 → q % 2 = 0)
    (hfin : (E + 1074).toNat * 2 ^ 52 + q < infMagnitude) :
    f64Value (signed neg ((E + 1074).toNat * 2 ^ 52 + q)) = some (signedRat neg (q * 2 ^ E)) ∧
      RoundedFrom (signedRat neg (X * 2 ^ E)) (signed neg ((E + 1074).toNat * 2 ^ 52 + q)) := by
  have habs := abs_le.mp hq
  have hqhi : q ≤ 2 ^ 53 := by
    have : (q : ℚ) < 2 ^ 53 + 1 := by linarith
    have : (q : ℚ) < ((2 ^ 53 + 1 : Nat) : ℚ) := by push_cast; linarith
    have := Nat.cast_lt.mp this
    omega
  have hqlo : E = -1074 ∨ 2 ^ 52 ≤ q := by
    rcases hlo with h | h
    · exact .inl h
    · right
      have : ((2 ^ 52 : Nat) : ℚ) < ((q + 1 : Nat) : ℚ) := by push_cast; linarith
      have := Nat.cast_lt.mp this
      omega
  have hv : f64Value (signed neg ((E + 1074).toNat * 2 ^ 52 + q)) = some (signedRat neg (q * 2 ^ E)) := by
    rw [f64Value_signed neg _ hfin, magValue_build q E hE hqlo hqhi]
  refine ⟨hv, _, hv, ?_⟩
  intro y w hy
  obtain ⟨ny, M, hM, rfl⟩ := f64Value_eq_some hy
  have hu := two_zpow_pos E
  have hparity : (signed neg ((E + 1074).toNat * 2 ^ 52 + q)).toNat % 2 = q % 2 := by
    have h63 : (E + 1074).toNat * 2 ^ 52 + q < 2 ^ 63 := by unfold infMagnitude at hfin; omega
    have := (signed_toNat neg _ h63).1
    omega
  rw [hparity]
  -- the distance of `r` from the exact number
  have hd : |signedRat neg ((q : ℚ) * 2 ^ E) - signedRat neg (X * 2 ^ E)| = |(q : ℚ) - X| * 2 ^ E := by
    have : signedRat neg ((q : ℚ) * 2 ^ E) - signedRat neg (X * 2 ^ E) = signedRat neg (((q : ℚ) - X) * 2 ^ E) := by
      cases neg <;> simp [signedRat] <;> ring
    rw [this, signedRat_abs, abs_mul, abs_of_pos hu]
  rw [hd]
  -- numbers of the same sign
  have same : |(q : ℚ) - X| * 2 ^ E ≤ |magValue M - X * 2 ^ E| ∧
      (|(q : ℚ) - X| * 2 ^ E = |magValue M - X * 2 ^ E| → magValue M ≠ q * 2 ^ E → q % 2 = 0) := by
    rcases magValue_grid M E hE with ⟨k, hk⟩ | ⟨hgt, hbelow⟩
    · have : |magValue M - X * 2 ^ E| = |(k : ℚ) - X| * 2 ^ E := by
        rw [hk, ← sub_mul, abs_mul, abs_of_pos hu]
      rw [this]
      obtain ⟨h1, h2⟩ := nearest_int q k X hq heven
      refine ⟨mul_le_mul_of_nonneg_right h1 hu.le, fun h hne => h2 (mul_right_cancel₀ hu.ne' h) ?_⟩
      rintro rfl
      exact hne hk
    · have hX52 : (2 : ℚ) ^ 52 ≤ X := by
        rcases hlo with h | h
        · omega
        · exact h
      have hstrict : |(q : ℚ) - X| * 2 ^ E < X * 2 ^ E - magValue M := by
        have : |(q : ℚ) - X| < X - (2 ^ 52 - 1 / 2) := by
          rcases eq_or_lt_of_le hX52 with h | h
          · have hq52 : q = 2 ^ 52 := by
              rw [← h] at habs
              have h1 : (q : ℚ) < ((2 ^ 52 + 1 : Nat) : ℚ) := by push_cast; linarith
              have h2 : ((2 ^ 52 : Nat) : ℚ) < ((q + 1 : Nat) : ℚ) := by push_cast; linarith
              have h1 := Nat.cast_lt.mp h1
              have h2 := Nat.cast_lt.mp h2
              omega
            rw [← h, hq52]
            norm_num
          · linarith
        have h2 := mul_lt_mul_of_pos_right this hu
        have h3 : (X - (2 ^ 52 - 1 / 2)) * 2 ^ E = X * 2 ^ E - (2 ^ 52 - 1 / 2) * 2 ^ E := by ring
        linarith
      have h1 : |magValue M - X * 2 ^ E| = X * 2 ^ E - magValue M := by
        rw [abs_sub_comm, abs_of_nonneg]
        have : 0 ≤ |(q : ℚ) - X| * 2 ^ E := by positivity
        linarith
      rw [h1]
      exact ⟨hstrict.le, fun h => absurd h hstrict.ne⟩
  by_cases hn : ny = neg
  · subst hn
    have h1 : |signedRat ny (magValue M) - signedRat ny (X * 2 ^ E)| = |magValue M - X * 2 ^ E| := by
      have : signedRat ny (magValue M) - signedRat ny (X * 2 ^ E) = signedRat ny (magValue M - X * 2 ^ E) := by
        cases ny <;> (simp [signedRat]; try ring)
      rw [this, signedRat_abs]
    rw [h1]
    refine ⟨same.1, fun h hne => same.2 h ?_⟩
    intro h2
    exact hne (by rw [h2])
  · -- a number of the other sign is no nearer than its mirror image, and equally near only at zero
    have hM0 := magValue_nonneg M
    have hX0 : 0 ≤ X * 2 ^ E := by positivity
    have h1 : |signedRat ny (magValue M) - signedRat neg (X * 2 ^ E)| = magValue M + X * 2 ^ E := by
      have hs : 0 ≤ magValue M + X * 2 ^ E := by linarith
      have : signedRat ny (magValue M) - signedRat neg (X * 2 ^ E) = signedRat ny (magValue M + X * 2 ^ E) := by
        cases ny <;> cases neg <;> first | exact absurd rfl hn | (simp [signedRat]; try ring)
      rw [this, signedRat_abs, abs_of_nonneg hs]
    rw [h1]
    have h2 : |magValue M - X * 2 ^ E| ≤ magValue M + X * 2 ^ E := by
      rw [abs_le]
      constructor <;> linarith
    refine ⟨le_trans same.1 h2, fun h hne => ?_⟩
    have h3 : |magValue M - X * 2 ^ E| = magValue M + X * 2 ^ E := le_antisymm h2 (h ▸ same.1)
    refine same.2 (by rw [h, h3]) ?_
    intro h4
    apply hne
    -- equal distance on both sides: one of the two numbers is zero
    rcases le_total (magValue M) (X * 2 ^ E) with h5 | h5
    · rw [abs_sub_comm, abs_of_nonneg (by linarith)] at h3
      have h6 : magValue M = 0 := by linarith
      rw [← h4, h6]
      cases ny <;> cases neg <;> simp [signedRat]
    · rw [abs_of_nonneg (by linarith)] at h3
      have h6 : X * 2 ^ E = 0 := by linarith
      have h7 : X = 0 := by
        rcases mul_eq_zero.mp h6 with h | h
        · exact h
        · exact absurd h hu.ne'
      have h8 : q = 0 := by
        rw [h7] at habs
        have : (q : ℚ) < ((1 : Nat) : ℚ) := by push_cast; linarith
        have := Nat.cast_lt.mp this
        omega
      rw [h4, h8]
      cases ny <;> cases neg <;> simp [signedRat]

/-! ### `roundShift` and `roundTo64` -/

/-- `roundShift` is the nearest integer, ties to even; how near, in units of `1 / 2^k`. -/
theorem roundShift_near (m k : Nat) :
    |(roundShift m k : ℚ) * 2 ^ k - m| ≤ 2 ^ k / 2 ∧
      (|(roundShift m k : ℚ) * 2 ^ k - m| = 2 ^ k / 2 → roundShift m k % 2 = 0 ∧ 2 * (m % 2 ^ k) = 2 ^ k) := by
  have hdm : (2 : ℚ) ^ k * ((m / 2 ^ k : Nat) : ℚ) + ((m % 2 ^ k : Nat) : ℚ) = m := by
    exact_mod_cast Nat.div_add_mod m (2 ^ k)
  have hr : m % 2 ^ k < 2 ^ k := Nat.mod_lt _ (Nat.two_pow_pos k)
  have hrq : ((m % 2 ^ k : Nat) : ℚ) < 2 ^ k := by exact_mod_cast hr
  have hr0 : (0 : ℚ) ≤ ((m % 2 ^ k : Nat) : ℚ) := Nat.cast_nonneg _
  simp only [roundShift, Nat.shiftRight_eq_div_pow]
  generalize hR : m % 2 ^ k = r at *
  generalize hQ : m / 2 ^ k = Q at *
  split_ifs with h
  · have h1 : (2 : ℚ) ^ k ≤ 2 * r := by
      rcases h with h | h
      · exact_mod_cast h.le
      · exact_mod_cast h.1.le
    have h2 : ((Q + 1 : Nat) : ℚ) * 2 ^ k - m = 2 ^ k - r := by
      push_cast
      linarith
    rw [h2, abs_of_nonneg (by linarith)]
    refine ⟨by linarith, fun h3 => ?_⟩
    have h4 : 2 * r = 2 ^ k := by
      have : (2 : ℚ) * r = 2 ^ k := by linarith
      exact_mod_cast this
    rcases h with h | h <;> omega
  · have h1 : (2 : ℚ) * r ≤ 2 ^ k := by
      have : 2 * r ≤ 2 ^ k := by omega
      exact_mod_cast this
    have h2 : (Q : ℚ) * 2 ^ k - m = -r := by linarith
    rw [h2, abs_neg, abs_of_nonneg hr0]
    refine ⟨by linarith, fun h3 => ?_⟩
    have h4 : 2 * r = 2 ^ k := by
      have : (2 : ℚ) * r = 2 ^ k := by linarith
      exact_mod_cast this
    omega

/-- The exact number `Y` places `2^e`, against the integer `m` the machine rounds: `m` is `Y` itself, or an odd integer
of at least 55 bits less than one place away from it (the quotient of `divFin`, whose last bit says that something was
left). -/
abbrev StandsFor (m : Nat) (Y : ℚ) : Prop := Y = m ∨ (m % 2 = 1 ∧ 54 ≤ Nat.log2 m ∧ |Y - m| < 1)

/-- What `roundExp` and `roundMant` do: 53 significant bits, the nearest integer, ties to even. -/
theorem round_spec (Y : ℚ) (m : Nat) (e : Int) (hY : StandsFor m Y) (hm : m ≠ 0) :
    (roundExp m e = -1074 ∨ (2 : ℚ) ^ 52 ≤ Y * 2 ^ (e - roundExp m e)) ∧ 0 ≤ Y * 2 ^ (e - roundExp m e) ∧
      Y * 2 ^ (e - roundExp m e) ≤ 2 ^ 53 ∧
      |(roundMant m e : ℚ) - Y * 2 ^ (e - roundExp m e)| ≤ 1 / 2 ∧
      (|(roundMant m e : ℚ) - Y * 2 ^ (e - roundExp m e)| = 1 / 2 → roundMant m e % 2 = 0) := by
  have hlog := Nat.log2_self_le hm
  have hlt := Nat.lt_log2_self (n := m)
  have hYlo : (2 : ℚ) ^ Nat.log2 m ≤ Y := by
    rcases hY with rfl | ⟨hodd, hL, hnear⟩
    · exact_mod_cast hlog
    · have h1 : (2 : ℚ) ^ Nat.log2 m + 1 ≤ m := by
        have : 2 ^ Nat.log2 m + 1 ≤ m := by
          have : 2 ^ Nat.log2 m = 2 * 2 ^ (Nat.log2 m - 1) := by
            rw [← Nat.pow_succ']
            congr 1
            omega
          omega
        exact_mod_cast this
      have := (abs_lt.mp hnear).1
      linarith
  have hYhi : Y ≤ (2 : ℚ) ^ (Nat.log2 m + 1) := by
    rcases hY with rfl | ⟨hodd, hL, hnear⟩
    · exact_mod_cast hlt.le
    · have h1 : (m : ℚ) + 1 ≤ 2 ^ (Nat.log2 m + 1) := by exact_mod_cast hlt
      have := (abs_lt.mp hnear).2
      linarith
  have hY0 : 0 ≤ Y := le_trans (by positivity) hYlo
  have hpow : ∀ a b : Int, (2 : ℚ) ^ a * 2 ^ b = 2 ^ (a + b) := fun a b => (zpow_add₀ (by norm_num) a b).symm
  have hnat : ∀ n : Nat, (2 : ℚ) ^ n = 2 ^ (n : Int) := fun n => (zpow_natCast 2 n).symm
  refine ⟨?_, ?_, ?_, ?_⟩
  · by_cases h : roundExp m e = -1074
    · exact .inl h
    · right
      have : e - roundExp m e = 52 - (Nat.log2 m : Int) := by
        unfold roundExp at h ⊢
        omega
      rw [this]
      calc (2 : ℚ) ^ 52 = 2 ^ Nat.log2 m * 2 ^ (52 - (Nat.log2 m : Int)) := by
            rw [hnat, hnat, hpow]
            congr 1
            push_cast
            omega
        _ ≤ _ := mul_le_mul_of_nonneg_right hYlo (two_zpow_pos _).le
  · positivity
  · have h1 : (2 : ℚ) ^ (e - roundExp m e) ≤ 2 ^ (52 - (Nat.log2 m : Int)) := by
      apply zpow_le_zpow_right₀ (by norm_num)
      unfold roundExp
      omega
    calc Y * 2 ^ (e - roundExp m e) ≤ 2 ^ (Nat.log2 m + 1) * 2 ^ (52 - (Nat.log2 m : Int)) :=
          mul_le_mul hYhi h1 (two_zpow_pos _).le (by positivity)
      _ = 2 ^ 53 := by
          rw [hnat, hnat, hpow]
          congr 1
          push_cast
          omega
  · by_cases hc : roundExp m e ≤ e
    · have hexact : Y = m := by
        rcases hY with h | ⟨-, hL, -⟩
        · exact h
        · unfold roundExp at hc
          omega
      have : (roundMant m e : ℚ) = Y * 2 ^ (e - roundExp m e) := by
        rw [roundMant, if_pos hc, Nat.shiftLeft_eq, hexact]
        push_cast
        rw [hnat]
        congr 2
        omega
      rw [this, sub_self]
      norm_num
    · obtain ⟨k, hk⟩ : ∃ k : Nat, roundExp m e - e = k := ⟨(roundExp m e - e).toNat, by omega⟩
      have hq : roundMant m e = roundShift m k := by
        rw [roundMant, if_neg hc, hk]
        rfl
      have hp : (0 : ℚ) < 2 ^ k := by positivity
      have hX : Y * (2 : ℚ) ^ (e - roundExp m e) = Y / 2 ^ k := by
        have : e - roundExp m e = -(k : Int) := by omega
        rw [this, zpow_neg, zpow_natCast]
        rfl
      have hdist : |(roundShift m k : ℚ) - Y / 2 ^ k| * 2 ^ k = |(roundShift m k : ℚ) * 2 ^ k - Y| := by
        rw [← abs_of_pos hp, ← abs_mul, abs_of_pos hp]
        congr 1
        field_simp
      obtain ⟨h1, h2⟩ := roundShift_near m k
      rw [hq, hX]
      -- the exact number is at most half a place away, and exactly half only where `m` is exact
      have key : |(roundShift m k : ℚ) * 2 ^ k - Y| ≤ 2 ^ k / 2 ∧
          (|(roundShift m k : ℚ) * 2 ^ k - Y| = 2 ^ k / 2 → roundShift m k % 2 = 0) := by
        rcases hY with h | ⟨hodd, hL, hnear⟩
        · rw [h]
          exact ⟨h1, fun h => (h2 h).1⟩
        · have hk2 : 2 ≤ k := by
            unfold roundExp at hk
            omega
          obtain ⟨j, rfl⟩ : ∃ j, k = j + 2 := ⟨k - 2, by omega⟩
          have hne : 2 * (m % 2 ^ (j + 2)) ≠ 2 ^ (j + 2) := by
            have h3 : m % 2 ^ (j + 2) % 2 = 1 := by
              rw [Nat.mod_mod_of_dvd _ (⟨2 ^ (j + 1), by ring⟩ : 2 ∣ 2 ^ (j + 2))]
              exact hodd
            have h4 : 2 ^ (j + 2) = 4 * 2 ^ j := by ring
            omega
          have hlt : |(roundShift m (j + 2) : ℚ) * 2 ^ (j + 2) - m| < 2 ^ (j + 2) / 2 :=
            lt_of_le_of_ne h1 fun h => hne (h2 h).2
          -- both sides are integers, so a whole place is left
          have hstep : |(roundShift m (j + 2) : ℚ) * 2 ^ (j + 2) - m| + 1 ≤ 2 ^ (j + 2) / 2 := by
            have h5 : |((roundShift m (j + 2) : Int) * 2 ^ (j + 2) - m)| < 2 ^ (j + 1) := by
              have h6 : (2 : ℚ) ^ (j + 2) / 2 = 2 ^ (j + 1) := by
                rw [pow_succ 2 (j + 1)]
                ring
              rw [h6] at hlt
              exact_mod_cast hlt
            have h6 : (2 : ℚ) ^ (j + 2) / 2 = 2 ^ (j + 1) := by
              rw [pow_succ 2 (j + 1)]
              ring
            rw [h6]
            have h7 : |((roundShift m (j + 2) : Int) * 2 ^ (j + 2) - m)| + 1 ≤ 2 ^ (j + 1) := h5
            exact_mod_cast h7
          have h8 : |(roundShift m (j + 2) : ℚ) * 2 ^ (j + 2) - Y| ≤
              |(roundShift m (j + 2) : ℚ) * 2 ^ (j + 2) - m| + |Y - m| := by
            have h9 := abs_sub_le ((roundShift m (j + 2) : ℚ) * 2 ^ (j + 2)) m Y
            rwa [abs_sub_comm (m : ℚ) Y] at h9
          exact ⟨by linarith, fun h => absurd h (by linarith)⟩
      exact ⟨le_of_mul_le_mul_right (by rw [hdist]; linarith [key.1]) hp,
        fun h => key.2 (by rw [← hdist, h]; ring)⟩

/-- `roundTo64` rounds once. -/
theorem roundedFrom_roundTo64 (neg : Bool) (Y : ℚ) (m : Nat) (e : Int) (hY : StandsFor m Y)
    (hfin : roundMagnitude m e < infMagnitude) : RoundedFrom (signedRat neg (Y * 2 ^ e)) (roundTo64 neg m e) := by
  by_cases hm : m = 0
  · subst hm
    have hY0 : Y = 0 := by
      rcases hY with h | h
      · simpa using h
      · omega
    subst hY0
    have := roundedFrom_of_grid neg 0 0 (-1074) (by omega) (.inl rfl) le_rfl (by norm_num) (by norm_num)
      (by norm_num) (by unfold infMagnitude; omega)
    have h2 := this.2
    simp only [zero_mul] at h2 ⊢
    exact h2
  · obtain ⟨hlo, h0, hhi, hnear, heven⟩ := round_spec Y m e hY hm
    unfold roundTo64
    rw [roundMagnitude, if_neg hm] at hfin ⊢
    have hfin' : (roundExp m e + 1074).toNat * 2 ^ 52 + roundMant m e < infMagnitude := by omega
    rw [min_eq_right hfin'.le]
    have hval : Y * (2 : ℚ) ^ e = Y * 2 ^ (e - roundExp m e) * 2 ^ roundExp m e := by
      rw [mul_assoc, ← zpow_add₀ (by norm_num)]
      congr 2
      omega
    rw [hval]
    exact (roundedFrom_of_grid neg _ _ _ (le_max_right _ _) hlo h0 hhi hnear heven hfin').2

/-- What is smaller than `2^1023` rounds to a finite magnitude. -/
theorem roundMagnitude_lt (Y : ℚ) (m : Nat) (e : Int) (hY : StandsFor m Y) (h : Y * 2 ^ e < 2 ^ 1023) :
    roundMagnitude m e < infMagnitude := by
  unfold roundMagnitude
  split_ifs with hm
  · unfold infMagnitude
    omega
  · obtain ⟨hlo, -, hhi, hnear, -⟩ := round_spec Y m e hY hm
    have hq : roundMant m e ≤ 2 ^ 53 := by
      have h1 := (abs_le.mp hnear).2
      have h2 : (roundMant m e : ℚ) < ((2 ^ 53 + 1 : Nat) : ℚ) := by
        push_cast
        linarith
      have := Nat.cast_lt.mp h2
      omega
    have hE : roundExp m e ≤ 970 := by
      rcases hlo with hlo | hlo
      · omega
      · have h1 : (2 : ℚ) ^ (52 + roundExp m e : Int) < 2 ^ (1023 : Int) := by
          calc (2 : ℚ) ^ (52 + roundExp m e : Int) = 2 ^ 52 * 2 ^ roundExp m e := by
                rw [zpow_add₀ (by norm_num)]
                norm_num
            _ ≤ Y * 2 ^ (e - roundExp m e) * 2 ^ roundExp m e :=
              mul_le_mul_of_nonneg_right hlo (two_zpow_pos _).le
            _ = Y * 2 ^ e := by
              rw [mul_assoc, ← zpow_add₀ (by norm_num)]
              congr 2
              omega
            _ < 2 ^ 1023 := h
            _ = 2 ^ (1023 : Int) := by norm_num
        have h2 := (zpow_lt_zpow_iff_right₀ (by norm_num : (1 : ℚ) < 2)).mp h1
        omega
    have : (roundExp m e + 1074).toNat ≤ 2044 := by omega
    apply lt_of_le_of_lt (min_le_right _ _)
    unfold infMagnitude
    omega

/-- A pattern that is correctly rounded is finite. -/
theorem f64Finite_of_roundedFrom {x : ℚ} {r : F64} (h : RoundedFrom x r) : F64Finite r :=
  have ⟨_, hv, _⟩ := h
  (f64Finite_iff r).mpr (finite_of_f64Value hv)

/-- All that `roundTo64` does to what is smaller than `2^1023`: a finite pattern, correctly rounded. -/
theorem roundTo64_spec (neg : Bool) (Y : ℚ) (m : Nat) (e : Int) (hY : StandsFor m Y) (h : Y * 2 ^ e < 2 ^ 1023) :
    F64Finite (roundTo64 neg m e) ∧ RoundedFrom (signedRat neg (Y * 2 ^ e)) (roundTo64 neg m e) :=
  have hr := roundedFrom_roundTo64 neg Y m e hY (roundMagnitude_lt Y m e hY h)
  ⟨f64Finite_of_roundedFrom hr, hr⟩

/-! ### Correctly rounded numbers -/

/-- What a correctly rounded pattern stands for is at most twice the exact number. -/
theorem roundedFrom_abs_le {x : ℚ} {r : F64} (h : RoundedFrom x r) : ∃ v, f64Value r = some v ∧ |v| ≤ 2 * |x| := by
  obtain ⟨v, hv, hn⟩ := h
  have h0 := (hn 0#64 0 (by decide +kernel)).1
  refine ⟨v, hv, ?_⟩
  have h1 := abs_add_le (v - x) x
  rw [zero_sub, abs_neg] at h0
  rw [sub_add_cancel] at h1
  linarith

/-- A number that some pattern stands for is rounded to itself. -/
theorem roundedFrom_exact {x : ℚ} {r y : F64} (h : RoundedFrom x r) (hy : f64Value y = some x) :
    f64Value r = some x := by
  obtain ⟨v, hv, hn⟩ := h
  have h0 := (hn y x hy).1
  rw [sub_self, abs_zero] at h0
  rw [hv, sub_eq_zero.mp (abs_nonpos_iff.mp h0)]

end Sys2Proof.Machine
end

