-- ==== Sys2Proof/Laws/PerInstr.lean ====
section
/-! SUPPORT. Statements made for each command, as syntax: the two fields of its encoding (30_encoding R50) are its `op`
and its `arg`, and the command map has a row it is of (R51). -/

-- One declaration after another: many at a time exhaust the threads of the joined compile.
set_option Elab.async false

namespace Sys2Proof.Laws.EncodedFields

/-- The word of a command has the command's `op` in bits 15:8 and its `arg` in bits 7:0, and selects the row of the
command map that bears the command's mnemonic. -/
def Statement (i : Instr) : Prop :=
  opField (encode i) = opOf i ∧ argField (encode i) = argOf i ∧
    ∃ r ∈ commandMap, r.mnemonic = mnemonicOf i ∧ r.selects (encode i) = true

theorem init : Statement .init := by
  unfold Statement
  decide +kernel

theorem update : Statement .update := by
  unfold Statement
  decide +kernel

theorem reset : Statement .reset := by
  unfold Statement
  decide +kernel

theorem setMode (v : Byte) : Statement (.setMode v) :=
  ⟨by revert v; decide +kernel, by revert v; decide +kernel, commandMap[3], by decide, rfl,
    by revert v; decide +kernel⟩

theorem setOsrsT (v : Byte) : Statement (.setOsrsT v) :=
  ⟨by revert v; decide +kernel, by revert v; decide +kernel, commandMap[4], by decide, rfl,
    by revert v; decide +kernel⟩

theorem setOsrsP (v : Byte) : Statement (.setOsrsP v) :=
  ⟨by revert v; decide +kernel, by revert v; decide +kernel, commandMap[5], by decide, rfl,
    by revert v; decide +kernel⟩

theorem setStandby (v : Byte) : Statement (.setStandby v) :=
  ⟨by revert v; decide +kernel, by revert v; decide +kernel, commandMap[6], by decide, rfl,
    by revert v; decide +kernel⟩

theorem setFilter (v : Byte) : Statement (.setFilter v) :=
  ⟨by revert v; decide +kernel, by revert v; decide +kernel, commandMap[7], by decide, rfl,
    by revert v; decide +kernel⟩

theorem getMode : Statement .getMode := by
  unfold Statement
  decide +kernel

theorem getOsrsT : Statement .getOsrsT := by
  unfold Statement
  decide +kernel

theorem getOsrsP : Statement .getOsrsP := by
  unfold Statement
  decide +kernel

theorem getStandby : Statement .getStandby := by
  unfold Statement
  decide +kernel

theorem getFilter : Statement .getFilter := by
  unfold Statement
  decide +kernel

theorem getTemperature : Statement .getTemperature := by
  unfold Statement
  decide +kernel

theorem getPressure : Statement .getPressure := by
  unfold Statement
  decide +kernel

theorem getHumidity : Statement .getHumidity := by
  unfold Statement
  decide +kernel

theorem getId : Statement .getId := by
  unfold Statement
  decide +kernel

theorem getCoef (k : Byte) : Statement (.getCoef k) :=
  ⟨by revert k; decide +kernel, by revert k; decide +kernel, commandMap[17], by decide, rfl,
    by revert k; decide +kernel⟩

end Sys2Proof.Laws.EncodedFields
end

