-- ==== Sys2Proof/Tests/Slice0.lean ====
section
/-! SUPPORT. Tests: ill-formed terms, words written out from the spec's encodings, one step of each command, the
engine's vectors, and for each statement with hypotheses a state and operands that meet them. Every expected result is
the spec's own (95_test_vectors, or the rule the test names). -/

-- One declaration after another: many at a time exhaust the threads of the joined compile.
set_option Elab.async false

namespace Sys2Proof.Tests

open Sys2Proof.Machine

/-! ### Well-formedness -/

/-- The only check of `Instr.wf`: a coefficient index above 11 (30_encoding R52). -/
theorem test_wf_refuses_index_12 : (Instr.getCoef 12).wf = false := by decide
theorem test_wf_refuses_index_255 : (Instr.getCoef 255).wf = false := by decide
theorem test_wf_accepts_index_11 : (Instr.getCoef 11).wf = true := by decide
/-- A setter's operand is judged by the setter, not here (30_encoding R52). -/
theorem test_wf_accepts_set_mode_255 : (Instr.setMode 255).wf = true := by decide

/-! ### Decoding: every constructor, its word written out bit by bit from 30_encoding R50, R51 -/

theorem test_decode_init : decode 0b0000000100000000#16 = .command .init := by decide
theorem test_decode_update : decode 0b0000001000000000#16 = .command .update := by decide
theorem test_decode_reset : decode 0b0000001100000000#16 = .command .reset := by decide
/-- SET_MODE NORMAL, 0x1003 (41_configuration R84). -/
theorem test_decode_set_mode : decode 0b0001000000000011#16 = .command (.setMode 3) := by decide
/-- SET_OSRS_T X2, 0x1102 (R85). -/
theorem test_decode_set_osrs_t : decode 0b0001000100000010#16 = .command (.setOsrsT 2) := by decide
/-- SET_OSRS_P X16, 0x1205 (R86). -/
theorem test_decode_set_osrs_p : decode 0b0001001000000101#16 = .command (.setOsrsP 5) := by decide
/-- SET_STANDBY SB4, 0x1304 (R87). -/
theorem test_decode_set_standby : decode 0b0001001100000100#16 = .command (.setStandby 4) := by decide
/-- SET_FILTER X16, 0x1404 (R88). -/
theorem test_decode_set_filter : decode 0b0001010000000100#16 = .command (.setFilter 4) := by decide
theorem test_decode_get_mode : decode 0b0010000000000000#16 = .command .getMode := by decide
theorem test_decode_get_osrs_t : decode 0b0010000100000000#16 = .command .getOsrsT := by decide
theorem test_decode_get_osrs_p : decode 0b0010001000000000#16 = .command .getOsrsP := by decide
theorem test_decode_get_standby : decode 0b0010001100000000#16 = .command .getStandby := by decide
theorem test_decode_get_filter : decode 0b0010010000000000#16 = .command .getFilter := by decide
theorem test_decode_get_temperature : decode 0b0011000000000000#16 = .command .getTemperature := by decide
theorem test_decode_get_pressure : decode 0b0011000100000000#16 = .command .getPressure := by decide
theorem test_decode_get_humidity : decode 0b0011001000000000#16 = .command .getHumidity := by decide
theorem test_decode_get_id : decode 0b0011001100000000#16 = .command .getId := by decide
/-- GET_COEF 11, 0x340B (V-D1). -/
theorem test_decode_get_coef : decode 0b0011010000001011#16 = .command (.getCoef 11) := by decide
/-- The illegal words of V-D1. -/
theorem test_decode_illegal_words :
    ([0x0000, 0x0101, 0x02FF, 0x0400, 0x0F00, 0x1500, 0x2001, 0x2500, 0x3001, 0x3501, 0x340C, 0x34FF, 0x7700,
      0xFFFF].all fun w => match decode w with | .command _ => false | .illegal _ => true) = true := by decide

/-- The host's numbering: bit 0 is the least significant bit of the one word of a row. -/
theorem test_decode_table_word : decodeTableWord 16 0x1205 = some (.setOsrsP 5) := by decide
theorem test_decode_table_word_illegal : decodeTableWord 16 0x340C = none := by decide

/-- The word listings give for a line (30_encoding R64): `SET_OSRS_P X16` is 0x1205, `SET_FILTER X16` is 0x1404. -/
theorem test_assemble_x16 :
    (assemble? "SET_OSRS_P" (.name "X16")).map encode = some 0x1205 ∧
      (assemble? "SET_FILTER" (.name "X16")).map encode = some 0x1404 := by decide +kernel
theorem test_assemble_illegal_value : (assemble? "SET_FILTER" (.number 5)).map encode = some 0x1405 := by
  decide +kernel
/-- Lines as a listing has them: a comment, `#` and a number, an index. -/
theorem test_parse_listing :
    (parseListing ["; start".toList, "SET_OSRS_P X16 ; comment".toList, "SET_MODE #2".toList, "GET_COEF 11".toList,
      "INIT".toList]).map (fun is => is.map encode) = some [0x1205, 0x1002, 0x340B, 0x0100] := by
  decide +kernel
/-- Numbers in the three notations of 00_scope R6: 5, 0x05 and 0b101 are one operand. -/
theorem test_parse_numbers :
    parseLine "SET_OSRS_T #0b101".toList = some [.setOsrsT 5] ∧ parseLine "SET_OSRS_T #0x05".toList = some [.setOsrsT 5] ∧
      parseLine "SET_OSRS_T #5".toList = some [.setOsrsT 5] ∧ parseLine "SET_OSRS_T #0b102".toList = none := by
  decide +kernel
theorem test_parse_refuses : parseLine "GET_COEF 12".toList = none ∧ parseLine "INIT X16".toList = none := by
  decide +kernel

/-! ### States to step from -/

/-- The trimming block of V-L1. -/
def blockL1 : List Byte :=
  [0x70, 0x6B, 0x43, 0x67, 0x18, 0xFC, 0x7D, 0x8E, 0x43, 0xD6, 0xD0, 0x0B, 0x27, 0x0B, 0x8C, 0x00, 0xF9, 0xFF, 0x8C,
    0x3C, 0xF8, 0xC6, 0x70, 0x17]

/-- The trimming block of V-L2. -/
def blockL2 : List Byte :=
  [0x00, 0x80, 0xFF, 0xFF, 0x01, 0x80, 0xFF, 0xFF, 0x00, 0x80, 0xFF, 0x7F, 0xFE, 0xFF, 0x00, 0x80, 0xFF, 0x7F, 0xFF,
    0xFF, 0x00, 0x00, 0x01, 0x80]

/-- The data block of program P1. -/
def dataP1 : List Byte := [0x65, 0x5A, 0xC0, 0x7E, 0xED, 0x00, 0x80, 0x00]

/-- A write completed. -/
def done : BusAnswer := .complete []

/-- After hardware reset, with these answers of the bus to come. -/
def fresh (answers : List BusAnswer) : State := { State.reset with script := answers }

/-- After a successful INIT with V-L1 and 58 01, with these shadows and these answers of the bus to come. -/
def ready (ctrl config : Byte) (answers : List BusAnswer) : State :=
  { State.reset with
    drv := .ready, trim := decodeTrim rebaseMask blockL1, trimValid := true, ctrlMeasSh := ctrl, configSh := config,
    id0 := 0x58, id1 := 0x01, script := answers }

/-- `ready` with a cached reading: program P1 after its UPDATE. -/
def measured : State :=
  { ready 0x25 0x00 [] with
    readingT := 0x403DD47AE147AE14, readingP := 0x408E3C1F00CC807A, readingValid := true }

/-- The state after one step, where there is one. -/
def nextOf : Host.Outcome State Fault Refusal → Option State
  | .next t => some t
  | .fault _ => none
  | .refused _ => none

/-- The state after the word is presented and run. -/
def ran (w : Word16) (s : State) : Option State := nextOf (step (present w s))

/-- What one word does, seen from outside: the response, the shadows, the bus. -/
def seen (w : Word16) (s : State) : Option (Option Response × Byte × Byte × List BusEvent) :=
  (ran w s).map fun t => (t.rsp, t.ctrlMeasSh, t.configSh, t.trace)

/-! ### One step of each command -/

/-- INIT of program P1: two reads and no write, one response, and the coefficients of its end state. -/
theorem test_init_loads :
    (ran 0x0100 (fresh [.complete [0x58, 0x01], .complete blockL1])).map (fun t => (t.rsp, t.trim)) =
        some (some ⟨.ok, 0, 0⟩, ⟨27504, 26435, 64536, 36477, 54851, 3024, 2855, 140, -7, 15500, -14600, 6000⟩) ∧
      (ran 0x0100 (fresh [.complete [0x58, 0x01], .complete blockL1])).map (fun t => t.trace) =
        some [.read 0xD0 2 (some [0x58, 0x01]), .read 0x88 24 (some blockL1)] := by
  decide +kernel
/-- INIT whose trimming read fails (program P4): BUS_ERROR, still UNINIT, nothing of the identification kept. -/
theorem test_init_second_read_fails :
    (ran 0x0100 (fresh [.complete [0x58, 0x01], .busError])).map (fun t => (t.drv, t.id0, t.rsp)) =
      some (.uninit, 0, some ⟨.busError, 0, 0⟩) := by
  decide +kernel
/-- UPDATE of program P1. -/
theorem test_update_measures :
    (ran 0x0200 (ready 0x25 0x00 [done, .complete dataP1])).map (fun t => (t.drv, t.readingValid, t.rsp)) =
      some (.ready, true, some ⟨.ok, 0x403DD47AE147AE14, 0x408E3C1F00CC807A⟩) := by
  decide +kernel
/-- UPDATE's events, in order: the write of the shadow, the wait, the read (43_driver R122). -/
theorem test_update_order :
    (ran 0x0200 (ready 0x25 0x00 [done, .complete dataP1])).map (fun t => t.trace) =
      some [.write 0xF4 0x25 true, .wait Config.settleDelay, .read 0xF7 8 (some dataP1)] := rfl
/-- RESET writes the reset word (43_driver R125). -/
theorem test_reset_writes :
    seen 0x0300 (ready 0x57 0x90 [done]) = some (some ⟨.ok, 0, 0⟩, 0x57, 0x90, [.write 0xE0 0xB6 true]) := by
  decide +kernel
theorem test_reset_fails :
    seen 0x0300 (ready 0x57 0x90 [.busError]) =
      some (some ⟨.busError, 0, 0⟩, 0x57, 0x90, [.write 0xE0 0xB6 false]) := by
  decide +kernel
/-- The setters of V-C4. -/
theorem test_set_mode_normal :
    seen 0x1003 (ready 0x25 0 [done]) = some (some ⟨.ok, 0, 0⟩, 0x27, 0, [.write 0xF4 0x27 true]) := by
  decide +kernel
theorem test_set_mode_write_fails :
    seen 0x1001 (ready 0x57 0 [.busError]) = some (some ⟨.busError, 0, 0⟩, 0x55, 0, [.write 0xF4 0x55 false]) := by
  decide +kernel
theorem test_set_osrs_t_x2 :
    seen 0x1102 (ready 0x25 0 [done]) = some (some ⟨.ok, 0, 0⟩, 0x45, 0, [.write 0xF4 0x45 true]) := by
  decide +kernel
theorem test_set_osrs_t_255 :
    seen 0x11FF (ready 0x55 0 [done]) = some (some ⟨.configurationError, 0, 0⟩, 0x55, 0, []) := by
  decide +kernel
theorem test_set_osrs_p_x16 :
    seen 0x1205 (ready 0x45 0 [done]) = some (some ⟨.ok, 0, 0⟩, 0x55, 0, [.write 0xF4 0x55 true]) := by
  decide +kernel
theorem test_set_osrs_p_6 :
    seen 0x1206 (ready 0x55 0 [done]) = some (some ⟨.configurationError, 0, 0⟩, 0x55, 0, []) := by
  decide +kernel
theorem test_set_standby_sb7 :
    seen 0x1307 (ready 0x25 0x90 [done]) = some (some ⟨.ok, 0, 0⟩, 0x25, 0xF0, [.write 0xF5 0xF0 true]) := by
  decide +kernel
theorem test_set_standby_8 :
    seen 0x1308 (ready 0x25 0x90 [done]) = some (some ⟨.configurationError, 0, 0⟩, 0x25, 0x90, []) := by
  decide +kernel
theorem test_set_filter_x16 :
    seen 0x1404 (ready 0x25 0x80 [done]) = some (some ⟨.ok, 0, 0⟩, 0x25, 0x90, [.write 0xF5 0x90 true]) := by
  decide +kernel
theorem test_set_filter_5 :
    seen 0x1405 (ready 0x25 0x90 [done]) = some (some ⟨.configurationError, 0, 0⟩, 0x25, 0x90, []) := by
  decide +kernel
/-- The getters of program P2, from shadows 0x57 and 0x90. -/
theorem test_get_mode : seen 0x2000 (ready 0x57 0x90 []) = some (some ⟨.ok, 3, 0⟩, 0x57, 0x90, []) := by
  decide +kernel
theorem test_get_osrs_t : seen 0x2100 (ready 0x57 0x90 []) = some (some ⟨.ok, 2, 0⟩, 0x57, 0x90, []) := by
  decide +kernel
theorem test_get_osrs_p : seen 0x2200 (ready 0x57 0x90 []) = some (some ⟨.ok, 5, 0⟩, 0x57, 0x90, []) := by
  decide +kernel
theorem test_get_standby : seen 0x2300 (ready 0x57 0x90 []) = some (some ⟨.ok, 4, 0⟩, 0x57, 0x90, []) := by
  decide +kernel
theorem test_get_filter : seen 0x2400 (ready 0x57 0x90 []) = some (some ⟨.ok, 4, 0⟩, 0x57, 0x90, []) := by
  decide +kernel
/-- The accessors of program P1, and V-D3. -/
theorem test_get_temperature :
    (ran 0x3000 measured).map (fun t => t.rsp) = some (some ⟨.ok, 0x403DD47AE147AE14, 0⟩) := by decide +kernel
theorem test_get_temperature_no_value :
    (ran 0x3000 (ready 0x25 0 [])).map (fun t => t.rsp) = some (some ⟨.noValue, 0, 0⟩) := by decide +kernel
theorem test_get_pressure :
    (ran 0x3100 measured).map (fun t => t.rsp) = some (some ⟨.ok, 0x408E3C1F00CC807A, 0⟩) := by decide +kernel
theorem test_get_humidity :
    (ran 0x3200 measured).map (fun t => t.rsp) = some (some ⟨.noValue, 0, 0⟩) := by decide +kernel
theorem test_get_id :
    (ran 0x3300 measured).map (fun t => t.rsp) = some (some ⟨.ok, 0x0158, 0⟩) := by decide +kernel
theorem test_get_coef_signed :
    (ran 0x3408 measured).map (fun t => t.rsp) = some (some ⟨.ok, 0xFFFFFFFFFFFFFFF9, 0⟩) := by decide +kernel
theorem test_get_coef_unrebased :
    (ran 0x3402 measured).map (fun t => t.rsp) = some (some ⟨.ok, 0xFC18, 0⟩) := by decide +kernel
/-- Priorities of V-D3: in UNINIT, STATE_ERROR before CONFIGURATION_ERROR, ILLEGAL_COMMAND before STATE_ERROR. -/
theorem test_priority_state_error : seen 0x1409 (fresh []) = some (some ⟨.stateError, 0, 0⟩, 0x25, 0, []) := by
  decide +kernel
theorem test_priority_illegal : seen 0x340C (fresh []) = some (some ⟨.illegalCommand, 0, 0⟩, 0x25, 0, []) := by
  decide +kernel
/-- A read that delivers fewer bytes than asked has failed (20_memory R31). -/
theorem test_short_read_fails :
    (ran 0x0100 (fresh [.complete [0x58]])).map (fun t => t.rsp) = some (some ⟨.busError, 0, 0⟩) := by
  decide +kernel
/-- A command abandoned by RST gives no response (70_reset R160). After UPDATE's write: that event stands. -/
theorem test_reset_during_command :
    (nextOf (step { ready 0x25 0x00 [done, .complete dataP1] with host := [.cmdThenRst 0x0200 1 false] })).map
        (fun t => (t.drv, t.rsp, t.trace, t.script)) =
      some (.uninit, none, [.write 0xF4 0x25 true], [.complete dataP1]) := rfl
/-- Inside UPDATE's data read: the read in progress is abandoned and takes no answer. -/
theorem test_reset_inside_transaction :
    (nextOf (step { ready 0x25 0x00 [done, .complete dataP1] with host := [.cmdThenRst 0x0200 2 true] })).map
        (fun t => (t.rsp, t.trace, t.script)) =
      some (none, [.write 0xF4 0x25 true, .wait Config.settleDelay, .readAbandoned 0xF7 8],
        [.complete dataP1]) := rfl
/-- RST resets the block whatever BUSY is. -/
theorem test_reset_while_busy :
    (nextOf (step { measured with busy := true, host := [.rst] })).map (fun t => (t.drv, t.busy, t.host)) =
      some (.uninit, false, []) := by
  decide +kernel
/-- The host's way of placing a word: the next step runs it, from reset. -/
theorem test_with_fetch_word :
    (nextOf (step (State.reset.withFetchWord 16 0x3300))).map (fun t => t.rsp) = some (some ⟨.stateError, 0, 0⟩) := by
  decide +kernel

/-! ### Trimming and the engine -/

/-- V-L2 under both masks: the words at the threshold. -/
theorem test_trim_boundaries :
    decodeTrim rebaseMask blockL2 =
        ⟨32768, 65535, 32769, 65535, 32768, 32767, 65534, -32768, 32767, -1, 0, -32767⟩ ∧
      decodeTrim rebaseMaskTypeList blockL2 =
        ⟨32768, -1, -32767, 65535, -32768, 32767, -2, -32768, 32767, -1, 0, -32767⟩ := by decide +kernel
/-- V-S1, the source's scenario. -/
theorem test_comp_t_source_scenario : compT 519888 27504 26435 (-1000) = (128422, 0x4039147AE147AE14) := by
  decide +kernel
/-- V-T7 and V-T12: negative results, floors. -/
theorem test_comp_t_minimum : compT 0 65535 65535 (-32768) = (-6291265, 0xC093330A3D70A3D7) := by decide +kernel
theorem test_comp_t_minus_one_hundredth : compT 0 26624 1 0 = (-26, 0xBF847AE147AE147B) := by decide +kernel
/-- The shift corner cases of 95_test_vectors Part 3. -/
theorem test_asr : (asr (-1) 11, asr (-2048) 11, asr (-2049) 11, asr (-6076000) 14, asr 6076000 14) =
    (-1, -1, -2, -371, 370) := by decide +kernel
/-- V-P1, V-P6. -/
theorem test_comp_p :
    compP 415148 128422 36477 (-10685) 3024 2855 140 (-7) 15500 (-14600) 6000 = 0x408F7442BA0FF1FD := by
  decide +kernel
theorem test_comp_p_negative :
    compP 1048575 128422 36477 (-10685) 3024 2855 140 (-7) 15500 (-14600) 6000 = 0xC05093C27884C7BB := by
  decide +kernel
/-- The tolerance of R110 around V-P1: the last bit may differ, 1007.0 is too far. -/
theorem test_pressure_tolerance :
    pressureConforms 415148 128422 36477 (-10685) 3024 2855 140 (-7) 15500 (-14600) 6000 0x408F7442BA0FF1FC = true ∧
      pressureConforms 415148 128422 36477 (-10685) 3024 2855 140 (-7) 15500 (-14600) 6000 0x408F780000000000 =
        false := by
  decide +kernel
/-- R110 at a zero reference: V-P3, the degenerate case, admits `+0.0` alone; with the divisor 1.0 and
`1048576 - 16 = 65535 * 65536 / 4096` the reference is a zero by line 36 and `-0.0` conforms. -/
theorem test_pressure_zero_conformance :
    pressureConforms 415148 8388320 0 0 (-32768) 0 0 0 0 0 0 0 = true ∧
      pressureConforms 415148 8388320 0 0 (-32768) 0 0 0 0 0 0 0x8000000000000000 = false ∧
      presDivisor (presV1 0) 1 0 0 = 0x3FF0000000000000 ∧ pressureConforms 16 0 1 0 0 65535 0 0 0 0 0 0 = true ∧
      pressureConforms 16 0 1 0 0 65535 0 0 0 0 0 0x8000000000000000 = true := by
  decide +kernel
/-- V-P3, whose divisor is `-0.0`; V-P4, whose bracket is zero. -/
theorem test_comp_p_negative_zero_divisor :
    presDivisor (presV1 8388320) 0 0 (-32768) = 0x8000000000000000 ∧
      compP 415148 8388320 0 0 (-32768) 0 0 0 0 0 0 = 0 := by decide +kernel
theorem test_comp_p_zero_bracket :
    compP 415148 1176576 36477 (-32768) 0 2855 140 (-7) 15500 (-14600) 6000 = 0 := by decide +kernel

/-! ### States and operands that meet the hypotheses of the statements -/

theorem witness_StepRunsDecodedCommand :
    { fresh [] with host := [.cmd 0x0100] }.busy = false ∧
      { fresh [] with host := [.cmd 0x0100] }.host = .cmd 0x0100 :: [] ∧ decode 0x0100 = .command .init := by decide
theorem witness_IllegalWordChangesNothing :
    { fresh [] with host := [.cmd 0x0101] }.busy = false ∧
      { fresh [] with host := [.cmd 0x0101] }.host = .cmd 0x0101 :: [] ∧
      decode 0x0101 = .illegal .operandNotZero := by decide
theorem witness_StepWithNothingToAccept :
    { fresh [] with busy := true, host := [.cmd 0x0100] }.busy = true ∧
      { fresh [] with busy := true, host := [.cmd 0x0100] }.host = .cmd 0x0100 :: [] ∧
      { fresh [] with busy := true }.busy = true ∧ { fresh [] with busy := true }.host = [] ∧
      (fresh []).busy = false ∧ (fresh []).host = [] := by decide
theorem witness_HardwareResetBetweenCommands :
    { measured with busy := true, host := [.rst] }.host = .rst :: [] ∧
      { measured with busy := true, host := [.cmdThenRst 0x0100 0 true] }.busy = true ∧
      { measured with busy := true, host := [.cmdThenRst 0x0100 0 true] }.host = .cmdThenRst 0x0100 0 true :: [] := by
  decide +kernel
/-- UPDATE whose events are a write, the wait and a read, cut inside each of them and after the last. -/
theorem witness_HardwareResetDuringCommand :
    { measured with host := [.cmdThenRst 0x0200 2 true] }.busy = false ∧
      { measured with host := [.cmdThenRst 0x0200 2 true] }.host = .cmdThenRst 0x0200 2 true :: [] ∧
      let evs : List BusEvent := [.write 0xF4 0x25 true, .wait Config.settleDelay, .read 0xF7 8 (some dataP1)]
      (∃ u, step { measured with host := [.cmd 0x0200], script := [done, .complete dataP1] } = .next u ∧
        u.trace = evs) ∧ evs[0]? = some (.write 0xF4 0x25 true) ∧ evs[1]? = some (.wait Config.settleDelay) ∧
        evs[2]? = some (.read 0xF7 8 (some dataP1)) ∧ evs.length ≤ 3 :=
  ⟨rfl, rfl, ⟨_, rfl, rfl⟩, rfl, rfl, rfl, le_rfl⟩
theorem witness_EveryStepAnswers :
    ∃ t, { fresh [] with host := [.cmd 0x0100] }.busy = false ∧
      { fresh [] with host := [.cmd 0x0100] }.host = .cmd 0x0100 :: [] ∧
      step { fresh [] with host := [.cmd 0x0100] } = .next t := ⟨_, rfl, rfl, rfl⟩

/-- A state that meets the invariant and has a reading. -/
theorem measured_inv : Inv { measured with host := [.cmd 0x1003] } := by
  constructor
  case lanes => exact fun r hr => nomatch hr
  all_goals decide +kernel

theorem witness_StepKeepsInvariant :
    Inv { measured with host := [.cmd 0x1003] } ∧
      ∃ t, step { measured with host := [.cmd 0x1003] } = .next t :=
  ⟨measured_inv, _, rfl⟩

theorem witness_DecodeOfEncode : (Instr.getCoef 11).wf = true ∧ (Instr.setMode 255).wf = true := by decide
theorem witness_EncodeOfDecode : decode 0x340B = .command (.getCoef 11) := by decide
theorem witness_DecodeFollowsCommandMap : decode 0x14FF = .command (.setFilter 255) := by decide
theorem witness_AssembleOfListing : (Instr.setFilter 5).wf = true := by decide
theorem witness_TrimWordsAreLittleEndian : byteAt blockL1 0 = 0x70 ∧ byteAt blockL1 1 = 0x6B := by decide
theorem witness_TrimWordsGoToTheirRegisters : 0 < 12 ∧ 11 < 12 := by decide
theorem witness_GetCoefReturnsCoefficient :
    measured.drv ≠ .uninit ∧ (11 : Byte).toNat ≤ 11 ∧ (0 : Byte).toNat ≤ 11 := by decide +kernel
theorem witness_CoefficientsImmutableOnceLoaded :
    { measured with host := [.cmd 0x0100, .cmd 0x0300] }.drv ≠ .uninit ∧
      (∀ x ∈ { measured with host := [.cmd 0x0100, .cmd 0x0300] }.host, x.isCommand = true) ∧
      ∃ t, Sys2Proof.core.run 2 { measured with host := [.cmd 0x0100, .cmd 0x0300] } = .next t :=
  ⟨by decide +kernel, by decide +kernel, _, rfl⟩
theorem witness_PackedBytes : (7 : Byte).toNat ≤ 7 ∧ (3 : Byte).toNat ≤ 3 := by decide
theorem witness_UnpackInvertsPack : (7 : Byte).toNat ≤ 7 ∧ (3 : Byte).toNat ≤ 3 := by decide
theorem witness_ReadModifyWriteIsRepacking :
    legalMode 3 = true ∧ legalOsrs 5 = true ∧ legalStandby 7 = true ∧ legalFilter 4 = true := by decide
theorem witness_SettersStoreAndWriteOnce :
    (ready 0x25 0 [done]).drv ≠ .uninit ∧ writeDone (answerAt (ready 0x25 0 [done]) 0) = true ∧
      ((3 : Byte).toNat = 0 ∨ (3 : Byte).toNat = 1 ∨ (3 : Byte).toNat = 3) ∧ (5 : Byte).toNat ≤ 5 ∧
      (7 : Byte).toNat ≤ 7 ∧ (4 : Byte).toNat ≤ 4 := by decide +kernel
theorem witness_FailedSetterKeepsNewShadow :
    (ready 0x25 0 [.busError]).drv ≠ .uninit ∧ writeDone (answerAt (ready 0x25 0 [.busError]) 0) = false ∧
      ((3 : Byte).toNat = 0 ∨ (3 : Byte).toNat = 1 ∨ (3 : Byte).toNat = 3) ∧ (5 : Byte).toNat ≤ 5 ∧
      (7 : Byte).toNat ≤ 7 ∧ (4 : Byte).toNat ≤ 4 := by decide +kernel
theorem witness_IllegalSetterValueRejected :
    (ready 0x25 0 []).drv ≠ .uninit ∧
      ¬((2 : Byte).toNat = 0 ∨ (2 : Byte).toNat = 1 ∨ (2 : Byte).toNat = 3) ∧ 5 < (6 : Byte).toNat ∧
      7 < (8 : Byte).toNat ∧ 4 < (5 : Byte).toNat := by decide +kernel
theorem witness_GettersReportFields : (ready 0x57 0x90 []).drv ≠ .uninit := by decide +kernel
theorem witness_SetThenGetReturnsValue :
    (ready 0x25 0 []).drv ≠ .uninit ∧ legalMode 3 = true ∧ legalOsrs 5 = true ∧ legalStandby 7 = true ∧
      legalFilter 4 = true ∧
      (∃ t, exec (.setMode 3) (ready 0x25 0 [.busError]) = .next t) ∧
      (∃ t, exec (.setOsrsT 5) (ready 0x25 0 []) = .next t) ∧ (∃ t, exec (.setOsrsP 5) (ready 0x25 0 []) = .next t) ∧
      (∃ t, exec (.setStandby 7) (ready 0x25 0 []) = .next t) ∧
      (∃ t, exec (.setFilter 4) (ready 0x25 0 []) = .next t) ∧
      ∃ t r, isSetter (.setMode 2) = true ∧ exec (.setMode 2) (ready 0x25 0 []) = .next t ∧ t.rsp = some r ∧
        (r.status = .configurationError ∨ r.status = .stateError) :=
  ⟨by decide +kernel, rfl, rfl, rfl, rfl, exec_answers _ _, exec_answers _ _, exec_answers _ _, exec_answers _ _,
    exec_answers _ _, _, _, rfl, rfl, rfl, .inl rfl⟩
theorem witness_TemperaturePipelineBounds :
    (0 : Int) ≤ 1048575 ∧ (1048575 : Int) ≤ 1048575 ∧ (0 : Int) ≤ 65535 ∧ (65535 : Int) ≤ 65535 ∧
      (-32768 : Int) ≤ -32768 ∧ (-32768 : Int) ≤ 65535 := by decide
/-- 3 and 2: the sum, the difference, the product and the quotient are below the bound. -/
theorem witness_FloatOperationsRoundOnce :
    f64Value 0x4008000000000000 = some 3 ∧ f64Value 0x4000000000000000 = some 2 ∧ (2 : ℚ) ≠ 0 ∧
      |(3 : ℚ) + 2| < 2 ^ 1023 ∧ |(3 : ℚ) - 2| < 2 ^ 1023 ∧ |(3 : ℚ) * 2| < 2 ^ 1023 ∧ |(3 : ℚ) / 2| < 2 ^ 1023 := by
  decide +kernel
theorem witness_IntegerConversionExact : -(2 : Int) ^ 24 < 8388320 ∧ (8388320 : Int) < 2 ^ 24 := by decide
theorem witness_TemperatureIsRoundedHundredths : (-6291265 : Int) ≤ 128422 ∧ (128422 : Int) ≤ 8388320 := by decide
/-- V-P3 and V-P4: a divisor that is `-0.0`, and one that is zero with `p1` not zero; V-P5: one that is not zero. -/
theorem witness_ZeroDivisorGivesZeroPressure :
    f64Value (presDivisor (presV1 8388320) 0 0 (-32768)) = some 0 ∧
      f64Value (presDivisor (presV1 1176576) 36477 (-32768) 0) = some 0 ∧
      f64Value (presDivisor (presV1 0) 1 0 0) ≠ some 0 := by
  decide +kernel

/-- `ready` with `p1 = 0`. -/
def readyP1Zero (answers : List BusAnswer) : State :=
  { ready 0x25 0 answers with trim := { decodeTrim rebaseMask blockL1 with p1 := 0 } }

theorem witness_UpdateWithP1ZeroAnswersZeroPressure :
    (readyP1Zero [done, .complete dataP1]).drv = .ready ∧ (readyP1Zero [done, .complete dataP1]).trim.p1 = 0 ∧
      writeDone (answerAt (readyP1Zero [done, .complete dataP1]) 0) = true ∧
      readResult 8 (answerAt (readyP1Zero [done, .complete dataP1]) 1) = some dataP1 := by
  decide +kernel
theorem witness_InitLoadsTableAndDefaults :
    (fresh [.complete [0x58, 0x01], .complete blockL1]).drv = .uninit ∧
      readResult 2 (answerAt (fresh [.complete [0x58, 0x01], .complete blockL1]) 0) = some [0x58, 0x01] ∧
      readResult 24 (answerAt (fresh [.complete [0x58, 0x01], .complete blockL1]) 1) = some blockL1 := by
  decide +kernel
theorem witness_FailedInitChangesNoRegister :
    (fresh [.busError]).drv = .uninit ∧ readResult 2 (answerAt (fresh [.busError]) 0) = none ∧
      (fresh [.complete [0x58, 0x01], .busError]).drv = .uninit ∧
      readResult 2 (answerAt (fresh [.complete [0x58, 0x01], .busError]) 0) = some [0x58, 0x01] ∧
      readResult 24 (answerAt (fresh [.complete [0x58, 0x01], .busError]) 1) = none := by
  decide +kernel
theorem witness_UpdateCachesAndAnswersReading :
    (ready 0x25 0 [done, .complete dataP1]).drv = .ready ∧
      writeDone (answerAt (ready 0x25 0 [done, .complete dataP1]) 0) = true ∧
      readResult 8 (answerAt (ready 0x25 0 [done, .complete dataP1]) 1) = some dataP1 := by
  decide +kernel
theorem witness_FailedUpdateKeepsReading :
    (ready 0x25 0 [.busError]).drv = .ready ∧ writeDone (answerAt (ready 0x25 0 [.busError]) 0) = false ∧
      (ready 0x25 0 [done, .busError]).drv = .ready ∧
      writeDone (answerAt (ready 0x25 0 [done, .busError]) 0) = true ∧
      readResult 8 (answerAt (ready 0x25 0 [done, .busError]) 1) = none := by
  decide +kernel
theorem witness_HumidityBytesInfluenceNothing :
    ∃ t t', exec .update { measured with script := done :: .complete [1, 2, 3, 4, 5, 6, 7, 8] :: [] } = .next t ∧
      exec .update { measured with script := done :: .complete [1, 2, 3, 4, 5, 6, 70, 80] :: [] } = .next t' :=
  ⟨_, _, rfl, rfl⟩
theorem witness_ResetCommandWritesResetWord :
    (ready 0x25 0 [done]).drv = .ready ∧ writeDone (answerAt (ready 0x25 0 [done]) 0) = true ∧
      writeDone (answerAt (ready 0x25 0 [.busError]) 0) = false := by decide +kernel
theorem witness_AccessorsAnswerCachedReading : measured.drv ≠ .uninit ∧ measured.readingValid = true := by
  decide +kernel
theorem witness_NoValueAnswers :
    (ready 0x25 0 []).drv ≠ .uninit ∧ (ready 0x25 0 []).readingValid = false := by decide +kernel
theorem witness_GetIdReturnsBothBytes : measured.drv ≠ .uninit := by decide +kernel
theorem witness_StateErrorChangesNothing :
    (Instr.getCoef 11).wf = true ∧ (fresh []).drv = .uninit ∧ Instr.getCoef 11 ≠ .init ∧ Instr.init.wf = true ∧
      measured.drv = .ready := by decide +kernel
theorem witness_DriverStateTransitions :
    (fresh []).drv = .uninit ∧ (∃ t, exec .init (fresh []) = .next t) ∧ measured.drv = .ready ∧
      ∃ t, exec .update measured = .next t := ⟨rfl, ⟨_, rfl⟩, rfl, _, rfl⟩
/-- An error that changes nothing, and one that leaves each shadow changed. -/
theorem witness_ErrorsLeaveRegistersUnchanged :
    (∃ t r, exec .getMode (fresh []) = .next t ∧ t.rsp = some r ∧ r.status ≠ .ok) ∧
      (∃ t r, exec (.setMode 3) (ready 0x25 0 [.busError]) = .next t ∧ t.rsp = some r ∧ r.status ≠ .ok) ∧
      ∃ t r, exec (.setFilter 4) (ready 0x25 0 [.busError]) = .next t ∧ t.rsp = some r ∧ r.status ≠ .ok :=
  ⟨⟨_, _, rfl, rfl, by decide⟩, ⟨_, _, rfl, rfl, by decide⟩, _, _, rfl, rfl, by decide⟩
theorem witness_OnlyUpdateProducesReadings : ∃ t, exec .init (fresh []) = .next t ∧ Instr.init ≠ .update :=
  ⟨_, rfl, by decide⟩
theorem witness_BusAccessesFollowRegisterMap : ∃ t, exec .update measured = .next t := ⟨_, rfl⟩
theorem witness_BusAnswersReadAsGiven : ([0x58] : List Byte).length < 2 := by decide
theorem witness_BusErrorEndsCommand : ∃ t, exec .update (ready 0x25 0 [done, .busError]) = .next t := ⟨_, rfl⟩
/-- One operand and state for each clause: StateError, ConfigurationError, NoValue, and none of the three. -/
theorem witness_StatusPriority :
    (fresh []).drv ≠ .measuring ∧ StateErrorDue .getMode (fresh []) ∧ (∃ t, exec .getMode (fresh []) = .next t) ∧
      (ready 0x25 0 []).drv ≠ .measuring ∧ ¬StateErrorDue (.setMode 2) (ready 0x25 0 []) ∧
      setterRejects (.setMode 2) = true ∧ (∃ t, exec (.setMode 2) (ready 0x25 0 []) = .next t) ∧
      ¬StateErrorDue .getHumidity (ready 0x25 0 []) ∧ NoValueDue .getHumidity (ready 0x25 0 []) ∧
      (∃ t, exec .getHumidity (ready 0x25 0 []) = .next t) ∧
      ¬StateErrorDue .reset (ready 0x25 0 []) ∧ setterRejects .reset = false ∧
      ¬NoValueDue .reset (ready 0x25 0 []) ∧ ∃ t, exec .reset (ready 0x25 0 []) = .next t :=
  ⟨by decide +kernel, .inl ⟨rfl, nofun⟩, exec_answers _ _, by decide +kernel, by decide +kernel, rfl,
    exec_answers _ _, by decide +kernel, .inr rfl, exec_answers _ _, by decide +kernel, rfl, by decide +kernel,
    exec_answers _ _⟩
theorem witness_FrameOfReaders :
    isReader (.getCoef 11) = true ∧ ∃ t, exec (.getCoef 11) measured = .next t := ⟨rfl, _, rfl⟩
theorem witness_FrameOfSetters :
    (∃ t, exec (.setMode 3) measured = .next t) ∧ (∃ t, exec (.setOsrsT 5) measured = .next t) ∧
      (∃ t, exec (.setOsrsP 5) measured = .next t) ∧ (∃ t, exec (.setStandby 7) measured = .next t) ∧
      ∃ t, exec (.setFilter 4) measured = .next t := ⟨⟨_, rfl⟩, ⟨_, rfl⟩, ⟨_, rfl⟩, ⟨_, rfl⟩, _, rfl⟩
theorem witness_FrameOfSequencer :
    (∃ t, exec .update measured = .next t) ∧ (∃ t, exec .reset measured = .next t) ∧
      ∃ t, exec .init (fresh []) = .next t := ⟨⟨_, rfl⟩, ⟨_, rfl⟩, _, rfl⟩

end Sys2Proof.Tests
end

/-! ## Every step answers (00_scope R9; 43_driver R130)

What a command, an accepted word and a step leave, as far as every command does the same: a response, and the host's
inputs and the command index as they were before it. -/

namespace Sys2Proof.Machine

/-- `t` is a response given from a state with `s`'s host inputs and command index. -/
def RespondedFrom (s t : State) : Prop :=
  ∃ st d0 d1 u, t = respond st d0 d1 u ∧ u.host = s.host ∧ u.cmdIndex = s.cmdIndex

/-- What the host sees after a response (30_encoding R53; 10_state R22). -/
theorem RespondedFrom.port {s t : State} (h : RespondedFrom s t) :
    t.rsp.isSome = true ∧ t.busy = false ∧ t.cmdIndex = s.cmdIndex + 1 ∧ t.host = s.host := by
  obtain ⟨st, d0, d1, u, rfl, hhost, hindex⟩ := h
  exact ⟨rfl, rfl, congrArg (· + 1) hindex, hhost⟩

/-- Whatever a command does, it ends with one response (43_driver R130). -/
theorem exec_responds {i : Instr} {s t : State} (h : exec i s = .next t) : RespondedFrom s t := by
  cases exec_cases h <;> exact ⟨_, _, _, _, rfl, rfl, rfl⟩

/-- An accepted word ends with one response, be it a command or illegal (30_encoding R52). -/
theorem runWord_responds {w : Word16} {s t : State} (h : runWord w s = .next t) : RespondedFrom s t := by
  unfold runWord at h
  split at h
  · exact exec_responds h
  · cases h
    exact ⟨_, _, _, _, rfl, rfl, rfl⟩

theorem runWordThenReset_answers (w : Word16) (k : Nat) (inside : Bool) (s : State) :
    ∃ t, runWordThenReset w k inside s = .next t := by
  obtain ⟨t, ht⟩ := runWord_answers w s
  exact ⟨abandon k inside s t, by rw [runWordThenReset, ht]⟩

/-- A word presented on the idle port is accepted and run (10_state R20; 60_exceptions R151). -/
theorem step_cmd {s : State} {w : Word16} {rest : List HostInput} (hidle : s.busy = false)
    (hhost : s.host = .cmd w :: rest) : step s = runWord w (accept rest s) := by
  simp [step, portStep, hhost, hidle]

/-- No step faults or refuses (00_scope R9). -/
theorem step_answers (s : State) : ∃ t, step s = .next t := by
  unfold step portStep
  split
  · exact ⟨_, rfl⟩
  · exact ⟨_, rfl⟩
  · split
    · exact ⟨_, rfl⟩
    · exact runWord_answers _ _
  · split
    · exact ⟨_, rfl⟩
    · exact runWordThenReset_answers _ _ _ _

/-- Settles O8: every input of the host answers, and an accepted word ends, as every word does, with one response. -/
theorem everyStepAnswers : Obligations.EveryStepAnswers := by
  refine ⟨step_answers, fun s t w rest hidle hhost hstep => ?_⟩
  rw [step_cmd hidle hhost] at hstep
  exact (runWord_responds hstep).port

end Sys2Proof.Machine

/-! ## The binary64 operations on finite operands (00_scope R5, decision D8)

Each operation is `roundTo64` of an integer that stands for the exact result, so `roundTo64_spec` says that it rounds
once; what is left is which integer that is. -/

namespace Sys2Proof.Machine

/-! ### Reading finite operands -/

/-- A pattern with a number unpacks to a sign, a significand of at most 53 bits and an exponent. -/
theorem unpack_of_f64Value {x : F64} {v : ℚ} (h : f64Value x = some v) :
    ∃ n m e, unpack x = .fin n m e ∧ m < 2 ^ 53 ∧ v = signedRat n (m * 2 ^ e) := by
  have hfrac : f64Frac x < 2 ^ 52 := (x.extractLsb' 0 52).isLt
  unfold f64Value unpack at h
  unfold unpack
  split_ifs at h ⊢ <;> cases h
  all_goals exact ⟨_, _, _, rfl, by omega, signedInt_mul _ _ _⟩

theorem unpack_fneg {x : F64} {n : Bool} {m : Nat} {e : Int} (h : unpack x = .fin n m e) :
    unpack (fneg x) = .fin (!n) m e := by
  have hsign : f64Sign (fneg x) = !f64Sign x := by
    rw [f64Sign, fneg, BitVec.msb_xor, show (0x8000000000000000#64).msb = true by decide, Bool.xor_true, f64Sign]
  have hexp : f64Exp (fneg x) = f64Exp x := by simp [f64Exp, fneg, BitVec.extractLsb'_xor]
  have hfrac : f64Frac (fneg x) = f64Frac x := by simp [f64Frac, fneg, BitVec.extractLsb'_xor]
  unfold unpack at h ⊢
  rw [hsign, hexp, hfrac]
  split_ifs at h ⊢ <;> cases h <;> rfl

theorem f64Value_of_unpack {x : F64} {n : Bool} {m : Nat} {e : Int} (h : unpack x = .fin n m e) :
    f64Value x = some (signedRat n (m * 2 ^ e)) := by
  simp only [f64Value, h, signedInt_mul]

/-- Inverting the sign bit negates the number. -/
theorem f64Value_fneg {x : F64} {v : ℚ} (h : f64Value x = some v) : f64Value (fneg x) = some (-v) := by
  obtain ⟨n, m, e, hx, -, rfl⟩ := unpack_of_f64Value h
  rw [f64Value_of_unpack (unpack_fneg hx)]
  cases n <;> simp [signedRat]

/-! ### Signs -/

theorem signedRat_mul (n₁ n₂ : Bool) (a b : ℚ) :
    signedRat n₁ a * signedRat n₂ b = signedRat (n₁ != n₂) (a * b) := by
  cases n₁ <;> cases n₂ <;> simp [signedRat]

theorem signedRat_div (n₁ n₂ : Bool) (a b : ℚ) :
    signedRat n₁ a / signedRat n₂ b = signedRat (n₁ != n₂) (a / b) := by
  cases n₁ <;> cases n₂ <;> simp [signedRat, neg_div, div_neg]

/-- An integer is its magnitude with its sign; a zero may take either sign. -/
theorem signedRat_natAbs {neg : Bool} {z : Int} (h : z ≠ 0 → neg = decide (z < 0)) (x : ℚ) :
    signedRat neg ((z.natAbs : ℚ) * x) = z * x := by
  rcases lt_trichotomy z 0 with hz | rfl | hz
  · rw [h hz.ne, decide_eq_true hz, Nat.cast_natAbs, abs_of_neg hz]
    simp [signedRat]
  · cases neg <;> simp [signedRat]
  · rw [h hz.ne', decide_eq_false hz.not_gt, Nat.cast_natAbs, abs_of_pos hz]
    simp [signedRat]

/-! ### The operations -/

/-- The pattern is finite and is `x` rounded once. -/
abbrev RoundsOnce (x : ℚ) (r : F64) : Prop := F64Finite r ∧ RoundedFrom x r

/-- `roundTo64` of what stands for a number below `2^1023` in magnitude rounds that number once. -/
theorem roundTo64_roundsOnce {neg : Bool} {Y x : ℚ} {m : Nat} {e : Int} (hY : StandsFor m Y)
    (hx : x = signedRat neg (Y * 2 ^ e)) (h : |x| < 2 ^ 1023) : RoundsOnce x (roundTo64 neg m e) := by
  subst hx
  rw [signedRat_abs] at h
  exact roundTo64_spec neg Y m e hY (lt_of_le_of_lt (le_abs_self _) h)

/-- A significand aligned to a smaller exponent is the same number. -/
theorem signedInt_shiftLeft_mul (n : Bool) (m : Nat) {e e₀ : Int} (h : e₀ ≤ e) :
    ((signedInt n (m <<< (e - e₀).toNat) : Int) : ℚ) * 2 ^ e₀ = signedRat n (m * 2 ^ e) := by
  have hpow : (2 : ℚ) ^ (e - e₀).toNat * 2 ^ e₀ = 2 ^ e := by
    rw [← zpow_natCast, Int.toNat_of_nonneg (sub_nonneg.mpr h), ← zpow_add₀ two_ne_zero, sub_add_cancel]
  rw [signedInt_mul, Nat.shiftLeft_eq, Nat.cast_mul, Nat.cast_pow, Nat.cast_ofNat, mul_assoc, hpow]

theorem fadd_roundsOnce {x y : F64} {vx vy : ℚ} (hx : f64Value x = some vx) (hy : f64Value y = some vy)
    (h : |vx + vy| < 2 ^ 1023) : RoundsOnce (vx + vy) (fadd x y) := by
  obtain ⟨n₁, m₁, e₁, ux, -, rfl⟩ := unpack_of_f64Value hx
  obtain ⟨n₂, m₂, e₂, uy, -, rfl⟩ := unpack_of_f64Value hy
  simp only [fadd, ux, uy, addFin]
  refine roundTo64_roundsOnce (.inl rfl) ?_ h
  rw [signedRat_natAbs fun hz => if_neg hz, Int.cast_add, add_mul,
    signedInt_shiftLeft_mul _ _ (min_le_left e₁ e₂), signedInt_shiftLeft_mul _ _ (min_le_right e₁ e₂)]

theorem fsub_roundsOnce {x y : F64} {vx vy : ℚ} (hx : f64Value x = some vx) (hy : f64Value y = some vy)
    (h : |vx - vy| < 2 ^ 1023) : RoundsOnce (vx - vy) (fsub x y) := by
  rw [sub_eq_add_neg] at h ⊢
  exact fadd_roundsOnce hx (f64Value_fneg hy) h

theorem fmul_roundsOnce {x y : F64} {vx vy : ℚ} (hx : f64Value x = some vx) (hy : f64Value y = some vy)
    (h : |vx * vy| < 2 ^ 1023) : RoundsOnce (vx * vy) (fmul x y) := by
  obtain ⟨n₁, m₁, e₁, ux, -, rfl⟩ := unpack_of_f64Value hx
  obtain ⟨n₂, m₂, e₂, uy, -, rfl⟩ := unpack_of_f64Value hy
  simp only [fmul, ux, uy]
  refine roundTo64_roundsOnce (.inl rfl) ?_ h
  rw [signedRat_mul, zpow_add₀ two_ne_zero, Nat.cast_mul, mul_mul_mul_comm]

/-- The integer that `divFin` rounds: twice the quotient of the shifted dividend, with a last bit for a remainder. -/
theorem quotient_standsFor {m₁ m₂ : Nat} (h0 : m₂ ≠ 0) (h53 : m₂ < 2 ^ 53) :
    StandsFor (2 * ((m₁ <<< 110) / m₂) + if (m₁ <<< 110) % m₂ = 0 then 0 else 1) (m₁ * 2 ^ 111 / m₂ : ℚ) := by
  have hpos : (0 : ℚ) < m₂ := by exact_mod_cast Nat.pos_of_ne_zero h0
  have hdiv : (m₁ <<< 110) / m₂ * m₂ + (m₁ <<< 110) % m₂ = m₁ * 2 ^ 110 := by
    rw [Nat.div_add_mod', Nat.shiftLeft_eq]
  have hrem : (m₁ <<< 110) % m₂ < m₂ := Nat.mod_lt _ (Nat.pos_of_ne_zero h0)
  generalize (m₁ <<< 110) / m₂ = q at *
  generalize (m₁ <<< 110) % m₂ = r at *
  have hexact : (m₁ * 2 ^ 111 / m₂ : ℚ) = 2 * q + 2 * r / m₂ := by
    have hdivQ : (q : ℚ) * m₂ + r = m₁ * 2 ^ 110 := by exact_mod_cast hdiv
    field_simp
    linarith
  rw [hexact]
  split_ifs with hr
  · left
    simp [hr]
  · -- a remainder is left, so the dividend is not 0 and its quotient by 53 bits has 54 bits and more
    right
    have hq : 2 ^ 54 ≤ q := by
      by_contra hlt
      have : q * m₂ ≤ 2 ^ 54 * 2 ^ 53 := Nat.mul_le_mul (by omega) h53.le
      have : m₁ ≠ 0 := by
        rintro rfl
        omega
      omega
    refine ⟨by omega, (Nat.le_log2 (by omega)).mpr (by omega), ?_⟩
    have hr0 : (0 : ℚ) < r := by exact_mod_cast Nat.pos_of_ne_zero hr
    have hlt : (r : ℚ) < m₂ := by exact_mod_cast hrem
    have hleft : 0 < 2 * (r : ℚ) / m₂ := by positivity
    have hleft2 : 2 * (r : ℚ) / m₂ < 2 := by
      rw [div_lt_iff₀ hpos]
      linarith
    rw [abs_lt]
    push_cast
    constructor <;> linarith

theorem fdiv_roundsOnce {x y : F64} {vx vy : ℚ} (hx : f64Value x = some vx) (hy : f64Value y = some vy)
    (hy0 : vy ≠ 0) (h : |vx / vy| < 2 ^ 1023) : RoundsOnce (vx / vy) (fdiv x y) := by
  obtain ⟨n₁, m₁, e₁, ux, -, rfl⟩ := unpack_of_f64Value hx
  obtain ⟨n₂, m₂, e₂, uy, h53, rfl⟩ := unpack_of_f64Value hy
  have hm : m₂ ≠ 0 := by
    rintro rfl
    cases n₂ <;> simp [signedRat] at hy0
  simp only [fdiv, ux, uy, if_neg hm, divFin]
  refine roundTo64_roundsOnce (quotient_standsFor hm h53) ?_ h
  have hpow : (2 : ℚ) ^ e₁ / 2 ^ e₂ = 2 ^ 111 * 2 ^ (e₁ - e₂ - 111) := by
    rw [← zpow_sub₀ two_ne_zero, ← zpow_natCast, ← zpow_add₀ two_ne_zero]
    congr 1
    omega
  rw [signedRat_div, mul_div_mul_comm, hpow]
  congr 1
  ring

/-- Settles O32: each of the four operations rounds once an integer that stands for its exact result. -/
theorem floatOperationsRoundOnce : Obligations.FloatOperationsRoundOnce := fun _ _ _ _ hx hy =>
  ⟨fadd_roundsOnce hx hy, fsub_roundsOnce hx hy, fmul_roundsOnce hx hy, fdiv_roundsOnce hx hy⟩

end Sys2Proof.Machine

/-! ## The invariant of a command boundary (10_state R11 to R20, R24)

A command starts in the state that `accept` leaves, which is busy and so is not at a boundary: what the commands keep is
the invariant of the registers, and the response they end with brings back the boundary. -/

namespace Sys2Proof.Machine

/-! ### The step, input by input -/

/-- With no input of the host a busy block waits (log entry 14). -/
theorem step_nil_busy {s : State} (hbusy : s.busy = true) (hhost : s.host = []) : step s = .next s := by
  simp [step, portStep, hhost, hbusy]

/-- With no input of the host an idle block's last response is over (log entry 13). -/
theorem step_nil_idle {s : State} (hidle : s.busy = false) (hhost : s.host = []) :
    step s = .next { s with rsp := none } := by
  simp [step, portStep, hhost, hidle]

/-- A word offered while BUSY is not accepted and stays offered (60_exceptions R151). -/
theorem step_cmd_busy {s : State} {w : Word16} {rest : List HostInput} (hbusy : s.busy = true)
    (hhost : s.host = .cmd w :: rest) : step s = .next s := by
  simp [step, portStep, hhost, hbusy]

/-- `RST` resets the block whatever BUSY is (70_reset R160). -/
theorem step_rst {s : State} {rest : List HostInput} (hhost : s.host = .rst :: rest) :
    step s = .next (hardwareReset { s with host := rest }) := by
  simp [step, portStep, hhost]

/-- A word during which `RST` comes is accepted on the idle port like any other (70_reset R160). -/
theorem step_cmdThenRst {s : State} {w : Word16} {k : Nat} {inside : Bool} {rest : List HostInput}
    (hidle : s.busy = false) (hhost : s.host = .cmdThenRst w k inside :: rest) :
    step s = runWordThenReset w k inside (accept rest s) := by
  simp [step, portStep, hhost, hidle]

/-! ### The coefficients a load can produce -/

/-- A trimming word is read as signed where its mask bit is set, and as unsigned elsewhere (40_trimming R73). -/
theorem rebase_toInt (mask : BitVec 12) (k : Nat) (w : Word16) :
    (rebase mask k w).toInt = if mask.getLsbD k = true then w.toInt else (w.toNat : Int) := by
  have hw : w.toNat < 65536 := w.isLt
  have hsigned := w.toInt_eq_toNat_cond
  by_cases hk : mask.getLsbD k = true
  · by_cases hneg : 32768 ≤ w.toNat
    · rw [rebase, if_pos ⟨hk, hneg⟩, if_pos hk, BitVec.toInt_ofInt, Int.bmod_def]
      omega
    · rw [rebase, if_neg (hneg ·.2), if_pos hk, BitVec.toInt_eq_toNat_cond, BitVec.toNat_setWidth]
      omega
  · rw [rebase, if_neg (hk ·.1), if_neg hk, BitVec.toInt_eq_toNat_cond, BitVec.toNat_setWidth]
    omega

theorem rebase_inU16 {mask : BitVec 12} {k : Nat} (hk : mask.getLsbD k = false) (w : Word16) :
    InU16 (rebase mask k w).toInt := by
  have hw : w.toNat < 65536 := w.isLt
  rw [rebase_toInt, if_neg (ne_true_of_eq_false hk)]
  omega

theorem rebase_inS16 {mask : BitVec 12} {k : Nat} (hk : mask.getLsbD k = true) (w : Word16) :
    InS16 (rebase mask k w).toInt := by
  rw [rebase_toInt, if_pos hk]
  exact ⟨w.le_toInt, Int.le_of_lt_add_one w.toInt_lt⟩

/-- The ranges of loaded coefficients (40_trimming R74), whatever the bytes: words 7 .. 11 are the rebased ones. -/
theorem decodeTrim_rangesF80 (b : List Byte) : RangesF80 (decodeTrim rebaseMask b) :=
  ⟨rebase_inU16 rfl _, rebase_inU16 rfl _, rebase_inU16 rfl _, rebase_inU16 rfl _, rebase_inU16 rfl _,
    rebase_inU16 rfl _, rebase_inU16 rfl _, rebase_inS16 rfl _, rebase_inS16 rfl _, rebase_inS16 rfl _,
    rebase_inS16 rfl _, rebase_inS16 rfl _⟩

/-! ### The invariant of the registers -/

/-- The registers of `s` meet the invariant, whatever BUSY and the response port hold. -/
abbrev RegistersInv (s : State) : Prop := Inv { s with busy := false, rsp := none }

/-- The byte has the legal codes that `CTRL_MEAS_SH` must hold (10_state R16). -/
structure LegalCtrl (b : Byte) : Prop where
  mode : legalMode (modeField b) = true
  osrsT : legalOsrs (osrsTField b) = true
  osrsP : legalOsrs (osrsPField b) = true

/-- The byte has the legal codes and the zeros that `CONFIG_SH` must hold (10_state R15, R16). -/
structure LegalConfig (b : Byte) : Prop where
  standby : legalStandby (standbyField b) = true
  filter : legalFilter (filterField b) = true
  low : b &&& 0x03 = 0

theorem legalCtrl_default : LegalCtrl 0x25 := ⟨by decide, by decide, by decide⟩

theorem legalConfig_default : LegalConfig 0x00 := ⟨by decide, by decide, by decide⟩

/-- Neither the host's inputs nor the port are registers, so accepting a word keeps the registers' invariant. -/
theorem Inv.accept {s : State} (h : Inv s) (rest : List HostInput) : RegistersInv (accept rest s) :=
  { h with idle := rfl, lanes := nofun }

/-- A response is a command boundary, if a failure's lanes are zero (30_encoding R53). -/
theorem RegistersInv.inv_respond {s : State} (h : RegistersInv s) {st : Status} {d0 d1 : Lane}
    (hlanes : st ≠ .ok → d0 = 0 ∧ d1 = 0) : Inv (respond st d0 d1 s) :=
  { h with
    idle := rfl
    lanes := fun _ hr => by cases hr; exact hlanes }

theorem RegistersInv.inv_respond_zero {s : State} (h : RegistersInv s) (st : Status) : Inv (respond st 0 0 s) :=
  h.inv_respond fun _ => ⟨rfl, rfl⟩

/-- The bus holds no register. -/
theorem RegistersInv.onBus {s : State} (h : RegistersInv s) (n : Nat) (evs : List BusEvent) :
    RegistersInv (onBus n evs s) := { h with }

theorem RegistersInv.setCtrl {s : State} (h : RegistersInv s) {b : Byte} (hb : LegalCtrl b) :
    RegistersInv { s with ctrlMeasSh := b } :=
  { h with mode := hb.mode, osrsT := hb.osrsT, osrsP := hb.osrsP }

theorem RegistersInv.setConfig {s : State} (h : RegistersInv s) {b : Byte} (hb : LegalConfig b) :
    RegistersInv { s with configSh := b } :=
  { h with standby := hb.standby, filter := hb.filter, configLow := hb.low }

/-- In READY a reading may be cached (43_driver R122). -/
theorem RegistersInv.cacheReading {s : State} (h : RegistersInv s) (hs : s.drv = .ready) (temp press : F64) :
    RegistersInv { s with drv := .ready, readingT := temp, readingP := press, readingValid := true } :=
  { h with
    notMeasuring := nofun
    trimValid := by simpa [hs] using h.trimValid
    readingValid := fun _ => rfl }

/-- What INIT commits (43_driver R121) meets the invariant whatever the registers were: each clause is about what it
sets. -/
theorem registersInv_init (s : State) (blk : List Byte) (id0 id1 : Byte) :
    RegistersInv { s with
      drv := .ready, trim := decodeTrim rebaseMask blk, trimValid := true, ctrlMeasSh := 0x25, configSh := 0x00,
      readingValid := false, id0 := id0, id1 := id1 } where
  idle := rfl
  notMeasuring := nofun
  trimValid := ⟨fun _ => nofun, fun _ => rfl⟩
  readingValid := nofun
  mode := legalCtrl_default.mode
  osrsT := legalCtrl_default.osrsT
  osrsP := legalCtrl_default.osrsP
  standby := legalConfig_default.standby
  filter := legalConfig_default.filter
  configLow := legalConfig_default.low
  coefficients := fun _ => decodeTrim_rangesF80 blk
  lanes := nofun

/-! ### Storing a legal code in a legal shadow -/

theorem LegalCtrl.storeMode {b v : Byte} (hb : LegalCtrl b) (hv : legalMode v = true) :
    LegalCtrl (withField b 0 2 v) :=
  have ⟨hmode, hosrsT, hosrsP⟩ := storeMode_fields v hv b
  ⟨by rwa [hmode], hosrsT ▸ hb.osrsT, hosrsP ▸ hb.osrsP⟩

theorem LegalCtrl.storeOsrsT {b v : Byte} (hb : LegalCtrl b) (hv : legalOsrs v = true) :
    LegalCtrl (withField b 5 3 v) :=
  have ⟨hosrsT, hosrsP, hmode⟩ := storeOsrsT_fields v hv b
  ⟨hmode ▸ hb.mode, by rwa [hosrsT], hosrsP ▸ hb.osrsP⟩

theorem LegalCtrl.storeOsrsP {b v : Byte} (hb : LegalCtrl b) (hv : legalOsrs v = true) :
    LegalCtrl (withField b 2 3 v) :=
  have ⟨hosrsP, hosrsT, hmode⟩ := storeOsrsP_fields v hv b
  ⟨hmode ▸ hb.mode, hosrsT ▸ hb.osrsT, by rwa [hosrsP]⟩

theorem LegalConfig.storeStandby {b v : Byte} (hb : LegalConfig b) (hv : legalStandby v = true) :
    LegalConfig (withField b 5 3 v &&& 0xFC) :=
  have ⟨hstandby, hfilter, hlow⟩ := storeStandby_fields v hv b
  ⟨by rwa [hstandby], hfilter ▸ hb.filter, hlow⟩

theorem LegalConfig.storeFilter {b v : Byte} (hb : LegalConfig b) (hv : legalFilter v = true) :
    LegalConfig (withField b 2 3 v &&& 0xFC) :=
  have ⟨hfilter, hstandby, hlow⟩ := storeFilter_fields v hv b
  ⟨hstandby ▸ hb.standby, by rwa [hfilter], hlow⟩

/-! ### Commands, words and steps -/

/-- Every command that starts with the registers' invariant ends at a command boundary with the whole invariant. -/
theorem exec_inv {i : Instr} {s t : State} (h : RegistersInv s) (hexec : exec i s = .next t) : Inv t := by
  cases exec_cases hexec with
  | answered st d0 hd0 => exact h.inv_respond fun hst => ⟨hd0 hst, rfl⟩
  | initFailed evs => exact (h.onBus _ evs).inv_respond_zero _
  | initDone id blk => exact ((registersInv_init s blk _ _).onBus _ _).inv_respond_zero _
  | updateFailed n evs => exact (h.onBus n evs).inv_respond_zero _
  | updateDone b temp press _ hs =>
    exact ((h.cacheReading hs temp press).onBus _ _).inv_respond fun hst => absurd rfl hst
  | resetWrote done => exact (h.onBus _ _).inv_respond_zero _
  | ctrlStored done shift width v _ hi =>
    have hb : LegalCtrl s.ctrlMeasSh := ⟨h.mode, h.osrsT, h.osrsP⟩
    refine ((h.setCtrl ?_).onBus _ _).inv_respond_zero _
    obtain ⟨-, hv, rfl, rfl⟩ | ⟨-, hv, rfl, rfl⟩ | ⟨-, hv, rfl, rfl⟩ := hi
    · exact hb.storeMode hv
    · exact hb.storeOsrsT hv
    · exact hb.storeOsrsP hv
  | configStored done shift width v _ hi =>
    have hb : LegalConfig s.configSh := ⟨h.standby, h.filter, h.configLow⟩
    refine ((h.setConfig ?_).onBus _ _).inv_respond_zero _
    obtain ⟨-, hv, rfl, rfl⟩ | ⟨-, hv, rfl, rfl⟩ := hi
    · exact hb.storeStandby hv
    · exact hb.storeFilter hv

/-- An accepted word ends at a command boundary, be it a command or illegal (30_encoding R52). -/
theorem runWord_inv {w : Word16} {s t : State} (h : RegistersInv s) (hrun : runWord w s = .next t) : Inv t := by
  unfold runWord at hrun
  split at hrun
  · exact exec_inv h hrun
  · cases hrun
    exact h.inv_respond_zero _

/-- A word abandoned by hardware reset leaves the registers of the reset, wherever it started (70_reset R160). -/
theorem runWordThenReset_inv {w : Word16} {k : Nat} {inside : Bool} {s t : State}
    (hrun : runWordThenReset w k inside s = .next t) : Inv t := by
  obtain ⟨u, hu⟩ := runWord_answers w s
  rw [runWordThenReset, hu] at hrun
  cases hrun
  exact hardwareReset_inv _

/-- Every step keeps the invariant: it ends no more than the response, resets the block, or runs a word. -/
theorem step_inv {s t : State} (h : Inv s) (hstep : step s = .next t) : Inv t := by
  cases hhost : s.host with
  | nil =>
    rw [step_nil_idle h.idle hhost] at hstep
    cases hstep
    exact { h with lanes := nofun }
  | cons input rest =>
    cases input with
    | cmd w =>
      rw [step_cmd h.idle hhost] at hstep
      exact runWord_inv (h.accept rest) hstep
    | rst =>
      rw [step_rst hhost] at hstep
      cases hstep
      exact hardwareReset_inv _
    | cmdThenRst w k inside =>
      rw [step_cmdThenRst h.idle hhost] at hstep
      exact runWordThenReset_inv hstep

/-- Settles O9, by the host's next input: a word runs to a boundary, and hardware reset makes one. -/
theorem stepKeepsInvariant : Obligations.StepKeepsInvariant := fun _ _ => step_inv

/-- Settles O1: the six values are those of 10_state R24, written out in `State.reset`. -/
theorem resetRegisterValues : Obligations.ResetRegisterValues := ⟨rfl, rfl, rfl, rfl, rfl, rfl⟩

/-- Settles O2: the reset state is itself what hardware reset leaves. -/
theorem resetSatisfiesInvariant : Obligations.ResetSatisfiesInvariant := hardwareReset_inv State.reset

/-- Settles O5: the step's equations for a word held back by BUSY and for no input. -/
theorem stepWithNothingToAccept : Obligations.StepWithNothingToAccept :=
  ⟨fun _ _ _ => step_cmd_busy, fun _ => step_nil_busy, fun _ => step_nil_idle⟩

end Sys2Proof.Machine

/-! ## The register bus (20_memory R31 to R41)

What the two bus operations make of the oracle's answer, and which accesses a whole command makes: none, one, two in a
row, or UPDATE's two with the wait between them. -/

namespace Sys2Proof.Machine

/-! ### The oracle's answer -/

/-- Of an answer that is too long the first bytes are yielded (log entry 3). -/
theorem readResult_append (b extra : List Byte) : readResult b.length (.complete (b ++ extra)) = some b := by
  simp [readResult]

theorem readResult_exact (b : List Byte) : readResult b.length (.complete b) = some b := by
  simpa using readResult_append b []

/-- An answer that is too short is a failure (20_memory R31, decision D20). -/
theorem readResult_short {n : Nat} {b : List Byte} (h : b.length < n) : readResult n (.complete b) = none :=
  if_neg h.not_ge

/-- Settles O60: the answers by their length, and the two operations as their equations say. -/
theorem busAnswersReadAsGiven : Obligations.BusAnswersReadAsGiven :=
  ⟨readResult_exact, readResult_append, fun _ _ => readResult_short, fun _ => rfl, fun _ => rfl, rfl, memRead_eq,
    memWrite_eq⟩

/-! ### The accesses of a command -/

/-- The events are accesses of the register map, `n` of them transactions and at most two, with at most the one wait. -/
structure MapAccesses (n : Nat) (evs : List BusEvent) : Prop where
  allowed : ∀ ev ∈ evs, ev.allowed = true
  transactions : (evs.filter BusEvent.onTransport).length = n
  atMostTwo : n ≤ 2
  others : (evs.filter fun ev => !ev.onTransport) ∈ [[], [.wait Config.settleDelay]]

theorem MapAccesses.none : MapAccesses 0 [] := ⟨nofun, rfl, by decide, .head _⟩

theorem MapAccesses.one {ev : BusEvent} (ha : ev.allowed = true) (ht : ev.onTransport = true) :
    MapAccesses 1 [ev] where
  allowed := by simpa using ha
  transactions := by simp [ht]
  atMostTwo := by decide
  others := by simp [ht]

theorem MapAccesses.two {ev fv : BusEvent} (ha : ev.allowed = true) (ht : ev.onTransport = true)
    (ha' : fv.allowed = true) (ht' : fv.onTransport = true) : MapAccesses 2 [ev, fv] where
  allowed := by simpa using ⟨ha, ha'⟩
  transactions := by simp [ht, ht']
  atMostTwo := le_rfl
  others := by simp [ht, ht']

/-- UPDATE's order (43_driver R122): the trigger write, the wait, the data read. -/
theorem MapAccesses.update (v : Byte) (done : Bool) (result : Option (List Byte)) :
    MapAccesses 2 [.write 0xF4 v done, .wait Config.settleDelay, .read 0xF7 8 result] where
  allowed := by simp [BusEvent.allowed]
  transactions := rfl
  atMostTwo := le_rfl
  others := .tail _ (.head _)

/-- Of the events a command may make none is abandoned: only hardware reset leaves such a one (70_reset R160). -/
theorem not_abandoned_of_allowed {ev : BusEvent} (h : ev.allowed = true) :
    (∀ addr k, ev ≠ .readAbandoned addr k) ∧ (∀ addr v, ev ≠ .writeAbandoned addr v) ∧
      ∀ delay, ev ≠ .waitAbandoned delay := by
  cases ev with
  | read | write | wait => simp
  | readAbandoned | writeAbandoned | waitAbandoned => cases h

/-- From `s` to `t` the bus gained these accesses, and each transaction took one answer of the oracle. -/
def AccessedFrom (s t : State) : Prop :=
  ∃ n evs, MapAccesses n evs ∧ t.trace = s.trace ++ evs ∧ t.script = s.script.drop n ∧ t.busCount = s.busCount + n

/-- Every command makes only accesses of the register map, each with its own answer (20_memory R34, R39, R41). -/
theorem exec_accessed {i : Instr} {s t : State} (h : exec i s = .next t) : AccessedFrom s t := by
  cases exec_cases h with
  | answered st d0 => exact ⟨0, [], .none, by simp, rfl, rfl⟩
  | initFailed evs _ _ he =>
    obtain rfl | ⟨id, rfl⟩ := he
    · exact ⟨_, _, .one rfl rfl, rfl, rfl, rfl⟩
    · exact ⟨_, _, .two rfl rfl rfl rfl, rfl, rfl, rfl⟩
  | initDone id blk => exact ⟨_, _, .two rfl rfl rfl rfl, rfl, rfl, rfl⟩
  | updateFailed n evs _ _ he =>
    obtain ⟨rfl, rfl⟩ | ⟨rfl, rfl⟩ := he
    · exact ⟨_, _, .one rfl rfl, rfl, rfl, rfl⟩
    · exact ⟨_, _, .update _ _ _, rfl, rfl, rfl⟩
  | updateDone b temp press => exact ⟨_, _, .update _ _ _, rfl, rfl, rfl⟩
  | resetWrote done => exact ⟨_, _, .one rfl rfl, rfl, rfl, rfl⟩
  | ctrlStored done shift width v => exact ⟨_, _, .one rfl rfl, rfl, rfl, rfl⟩
  | configStored done shift width v => exact ⟨_, _, .one rfl rfl, rfl, rfl, rfl⟩

/-- Settles O54: the accesses of a command, by what it does, and none of them can be an abandoned one. -/
theorem busAccessesFollowRegisterMap : Obligations.BusAccessesFollowRegisterMap := fun _ _ _ hexec => by
  obtain ⟨n, evs, ⟨hallowed, hcount, htwo, hothers⟩, htrace, hscript, hbus⟩ := exec_accessed hexec
  exact ⟨n, evs, htrace, hallowed, fun ev hev => not_abandoned_of_allowed (hallowed ev hev), hcount, htwo, hothers,
    hscript, hbus⟩

end Sys2Proof.Machine

/-! ## The command map: decoder, encoder and rows (30_encoding R50 to R52, R54, R59, R64)

A word is its `op` and its `arg`. The decoder and the encoder are inverse on the commands of the map, and every row of
the map pins the `op`, so a word selects at most the row of its own command. -/

namespace Sys2Proof

/-! ### The round trip of a word -/

/-- An encoded command's fields are read back, and they choose the command's own arm (30_encoding R50, R51). -/
theorem decode_encode {i : Instr} (hwf : i.wf = true) : decode (encode i) = .command i := by
  rw [decode, encode, Machine.opField_append, Machine.argField_append]
  cases i with
  | getCoef k => exact if_pos hwf
  | _ => rfl

theorem noOperand_eq_command {i j : Instr} {arg : Byte} (h : noOperand i arg = .command j) : arg = 0 ∧ i = j := by
  unfold noOperand at h
  split_ifs at h with harg
  cases h
  exact ⟨harg, rfl⟩

theorem indexOperand_eq_command {j : Instr} {arg : Byte} (h : indexOperand arg = .command j) :
    coefIndexOk arg = true ∧ .getCoef arg = j := by
  unfold indexOperand at h
  split_ifs at h with harg
  cases h
  exact ⟨harg, rfl⟩

/-- A word with a command's two fields is that command's word. -/
theorem encode_eq_of_fields {w : Word16} {i : Instr} (hop : (opField w).toNat = (opOf i).toNat)
    (harg : argField w = argOf i) : encode i = w := by
  rw [encode, ← BitVec.eq_of_toNat_eq hop, ← harg, Machine.append_fields]

/-- What decodes is well-formed and encodes back, by the three formats of 30_encoding R50. -/
theorem wf_encode_of_decode {w : Word16} {i : Instr} (h : decode w = .command i) : i.wf = true ∧ encode i = w := by
  unfold decode at h
  split at h
  case h_4 hop | h_5 hop | h_6 hop | h_7 hop | h_8 hop => -- format V
    cases h
    exact ⟨rfl, encode_eq_of_fields hop rfl⟩
  case h_18 hop => -- format K
    obtain ⟨hindex, rfl⟩ := indexOperand_eq_command h
    exact ⟨hindex, encode_eq_of_fields hop rfl⟩
  case h_19 => cases h
  all_goals -- format N
    rename_i hop
    obtain ⟨harg, rfl⟩ := noOperand_eq_command h
    exact ⟨rfl, encode_eq_of_fields hop harg⟩

/-- Settles O11, by the command's format: its two fields are read back, and they choose its own arm. -/
theorem decodeOfEncode : Obligations.DecodeOfEncode := fun _ => decode_encode

/-- Settles O12: each arm of the decoder answers a command with the word's own fields. -/
theorem encodeOfDecode : Obligations.EncodeOfDecode := fun _ _ => wf_encode_of_decode

/-! ### The rows of the map -/

/-- Every row's mask keeps the whole `op`. -/
theorem opField_mask : ∀ r ∈ commandMap, opField r.mask = BitVec.allOnes 8 := by decide

theorem opField_and (w m : Word16) : opField (w &&& m) = opField w &&& opField m := BitVec.extractLsb'_and

theorem opField_of_selects {r : MapRow} {w : Word16} (hr : r ∈ commandMap) (hsel : r.selects w = true) :
    opField w = opField r.pattern := by
  rw [← eq_of_beq hsel, opField_and, opField_mask r hr, BitVec.and_allOnes]

theorem commandMap_ops_nodup : (commandMap.map fun r => opField r.pattern).Nodup := by decide

/-- No word selects two rows (30_encoding R51): the rows' `op`s differ. -/
theorem eq_of_selects {r q : MapRow} {w : Word16} (hr : r ∈ commandMap) (hq : q ∈ commandMap)
    (hrw : r.selects w = true) (hqw : q.selects w = true) : r = q :=
  List.inj_on_of_nodup_map commandMap_ops_nodup hr hq
    ((opField_of_selects hr hrw).symm.trans (opField_of_selects hq hqw))

/-- The words the row selects, those of GET_COEF with an index in range, are words of well-formed commands. -/
def SelectsCommands (r : MapRow) : Prop :=
  ∀ w, r.selects w = true → (r.mnemonic = "GET_COEF" → (argField w).toNat ≤ 11) →
    ∃ i : Instr, i.wf = true ∧ encode i = w

/-- A row of format N selects its command's one word. -/
theorem selectsCommands_bare {m : String} (i : Instr) (hwf : i.wf = true) : SelectsCommands ⟨m, encode i, 0xFFFF⟩ :=
  fun _ hsel _ => ⟨i, hwf, (eq_of_beq hsel).symm.trans BitVec.and_allOnes⟩

/-- A row of format V or K pins the `op` alone, and the operand is whatever `arg` is. -/
theorem selectsCommands_operand {m : String} {p : Word16} (f : Byte → Instr) (hr : ⟨m, p, 0xFF00⟩ ∈ commandMap)
    (hf : ∀ v, encode (f v) = opField p ++ v) (hwf : ∀ v, (m = "GET_COEF" → v.toNat ≤ 11) → (f v).wf = true) :
    SelectsCommands ⟨m, p, 0xFF00⟩ := fun w hsel harg =>
  ⟨f (argField w), hwf _ harg, by rw [hf, ← opField_of_selects hr hsel, Machine.append_fields]⟩

/-- The 18 rows, in the table's order. -/
theorem commandMap_selectsCommands : ∀ r ∈ commandMap, SelectsCommands r := by
  simp only [commandMap, List.forall_mem_cons]
  exact ⟨selectsCommands_bare .init rfl, selectsCommands_bare .update rfl, selectsCommands_bare .reset rfl,
    selectsCommands_operand .setMode (by decide) (fun _ => rfl) (fun _ _ => rfl),
    selectsCommands_operand .setOsrsT (by decide) (fun _ => rfl) (fun _ _ => rfl),
    selectsCommands_operand .setOsrsP (by decide) (fun _ => rfl) (fun _ _ => rfl),
    selectsCommands_operand .setStandby (by decide) (fun _ => rfl) (fun _ _ => rfl),
    selectsCommands_operand .setFilter (by decide) (fun _ => rfl) (fun _ _ => rfl),
    selectsCommands_bare .getMode rfl, selectsCommands_bare .getOsrsT rfl, selectsCommands_bare .getOsrsP rfl,
    selectsCommands_bare .getStandby rfl, selectsCommands_bare .getFilter rfl,
    selectsCommands_bare .getTemperature rfl, selectsCommands_bare .getPressure rfl,
    selectsCommands_bare .getHumidity rfl, selectsCommands_bare .getId rfl,
    selectsCommands_operand .getCoef (by decide) (fun _ => rfl) (fun _ h => decide_eq_true (Nat.lt_succ_of_le (h rfl))),
    nofun⟩

/-- The model's support lemmas, one a command, as one: a command's word has its fields and selects its row. -/
theorem encodedFields : ∀ i : Instr, Laws.EncodedFields.Statement i
  | .init => Laws.EncodedFields.init
  | .update => Laws.EncodedFields.update
  | .reset => Laws.EncodedFields.reset
  | .setMode v => Laws.EncodedFields.setMode v
  | .setOsrsT v => Laws.EncodedFields.setOsrsT v
  | .setOsrsP v => Laws.EncodedFields.setOsrsP v
  | .setStandby v => Laws.EncodedFields.setStandby v
  | .setFilter v => Laws.EncodedFields.setFilter v
  | .getMode => Laws.EncodedFields.getMode
  | .getOsrsT => Laws.EncodedFields.getOsrsT
  | .getOsrsP => Laws.EncodedFields.getOsrsP
  | .getStandby => Laws.EncodedFields.getStandby
  | .getFilter => Laws.EncodedFields.getFilter
  | .getTemperature => Laws.EncodedFields.getTemperature
  | .getPressure => Laws.EncodedFields.getPressure
  | .getHumidity => Laws.EncodedFields.getHumidity
  | .getId => Laws.EncodedFields.getId
  | .getCoef k => Laws.EncodedFields.getCoef k

/-- A well-formed command with GET_COEF's mnemonic has an index in range (30_encoding R52). -/
theorem argOf_le_of_wf {i : Instr} (hwf : i.wf = true) (hcoef : mnemonicOf i = "GET_COEF") :
    (argOf i).toNat ≤ 11 := by
  cases i with
  | getCoef k => exact Nat.le_of_lt_succ (of_decide_eq_true hwf)
  | _ => simp [mnemonicOf] at hcoef

/-- A word that decodes selects a row of its command's mnemonic. -/
theorem exists_row_of_decode {w : Word16} {i : Instr} (h : decode w = .command i) :
    ∃ r ∈ commandMap, r.selects w = true ∧ r.mnemonic = mnemonicOf i ∧
      (r.mnemonic = "GET_COEF" → (argField w).toNat ≤ 11) := by
  obtain ⟨hwf, rfl⟩ := wf_encode_of_decode h
  obtain ⟨-, harg, r, hr, hname, hsel⟩ := encodedFields i
  exact ⟨r, hr, hsel, hname, fun hcoef => harg ▸ argOf_le_of_wf hwf (hname ▸ hcoef)⟩

/-- Settles O13: a command's word selects its own row, a row's words are words of commands, and the `op`
tells the row. -/
theorem decodeFollowsCommandMap : Obligations.DecodeFollowsCommandMap := by
  refine ⟨fun w => ⟨?_, ?_⟩, fun w i hi r hr hsel => ?_, ?_⟩
  · rintro ⟨i, hi⟩
    obtain ⟨r, hr, hsel, -, harg⟩ := exists_row_of_decode hi
    exact ⟨r, hr, hsel, harg⟩
  · rintro ⟨r, hr, hsel, harg⟩
    obtain ⟨i, hwf, rfl⟩ := commandMap_selectsCommands r hr w hsel harg
    exact ⟨i, decode_encode hwf⟩
  · obtain ⟨q, hq, hqw, hname, -⟩ := exists_row_of_decode hi
    rw [eq_of_selects hr hq hsel hqw, hname]
  · refine (List.pairwise_map.mp commandMap_ops_nodup).imp_of_mem fun hr hq hne w hboth => hne ?_
    rw [eq_of_selects hr hq hboth.1 hboth.2]

/-- Settles O10: the accepted words are encodings of their commands; each refused word has the `op` of no row or an
`arg` its row does not take. -/
theorem specWordsDecode : Obligations.SpecWordsDecode :=
  ⟨decode_encode (i := .init) rfl, decode_encode (i := .update) rfl, decode_encode (i := .reset) rfl,
    decode_encode (i := .setMode 0xFF) rfl, decode_encode (i := .setOsrsP 5) rfl, decode_encode (i := .getFilter) rfl,
    decode_encode (i := .getCoef 0) rfl, decode_encode (i := .getCoef 11) rfl, rfl, rfl, rfl⟩

end Sys2Proof

namespace Sys2Proof.Machine

/-! ### Statuses and illegal words -/

/-- Settles O14: the codes of 30_encoding R54. -/
theorem statusCodes : Obligations.StatusCodes := ⟨rfl, rfl, rfl, rfl, rfl, rfl⟩

theorem runWord_illegal {w : Word16} {e : DecodeError} (h : decode w = .illegal e) (s : State) :
    runWord w s = .next (raise .illegalCommand s) := by
  rw [runWord, h]

/-- Settles O4: the word is accepted, and raising IllegalCommand only answers. -/
theorem illegalWordChangesNothing : Obligations.IllegalWordChangesNothing := fun s w rest e hidle hhost hw => by
  rw [step_cmd hidle hhost, runWord_illegal hw]
  rfl

/-! ### Operands: legal sets and listings -/

/-- A byte is one of the codes of a set when its number is one of theirs. -/
theorem any_code_iff {α : Type} (members : List α) (code : α → Byte) (v : Byte) :
    (members.any fun m => code m == v) = true ↔ v.toNat ∈ members.map fun m => (code m).toNat := by
  simp [BitVec.toNat_inj]

/-- Settles O24: the numbers of the codes of 30_encoding R58, set by set. -/
theorem legalSets : Obligations.LegalSets := fun v => by
  have hmode : legalMode v = true ↔ v.toNat ∈ [0, 1, 3] := any_code_iff Mode.all Mode.code v
  have hosrs : legalOsrs v = true ↔ v.toNat ∈ [0, 1, 2, 3, 4, 5] := any_code_iff Osrs.all Osrs.code v
  have hstandby : legalStandby v = true ↔ v.toNat ∈ [0, 1, 2, 3, 4, 5, 6, 7] :=
    any_code_iff Standby.all Standby.code v
  have hfilter : legalFilter v = true ↔ v.toNat ∈ [0, 1, 2, 3, 4] := any_code_iff FilterSel.all FilterSel.code v
  simp only [hmode, hosrs, hstandby, hfilter, List.mem_cons, List.not_mem_nil, or_false, true_and]
  refine ⟨?_, ?_, ?_⟩ <;> omega

/-- In a table that gives no name twice, a row is found by its name. -/
theorem find?_name {names : List (String × Byte)} (hnames : (names.map Prod.fst).Nodup) {p : String × Byte}
    (hp : p ∈ names) : (names.find? fun q => q.1 == p.1) = some p := by
  obtain ⟨q, hq⟩ : ∃ q, (names.find? fun q => q.1 == p.1) = some q :=
    Option.isSome_iff_exists.mp (List.find?_isSome.mpr ⟨p, hp, beq_iff_eq.mpr rfl⟩)
  have hname : q.1 = p.1 := by simpa using List.find?_some hq
  rw [hq, List.inj_on_of_nodup_map hnames (List.mem_of_find?_eq_some hq) hp hname]

/-- What is shown for a value, its name or its number, is read back as that value. -/
theorem valueOperand_showValue {names : List (String × Byte)} (hnames : (names.map Prod.fst).Nodup) (v : Byte) :
    valueOperand names (showValue names v) = some v := by
  unfold showValue
  split
  next p hp =>
    have hcode : p.2 = v := by simpa using List.find?_some hp
    rw [valueOperand, find?_name hnames (List.mem_of_find?_eq_some hp), Option.map_some, hcode]
  next => rfl

/-- A setter's arm of the assembler gives the setter back. -/
theorem map_valueOperand_showValue {names : List (String × Byte)} (f : Byte → Instr) (v : Byte)
    (hnames : (names.map Prod.fst).Nodup) : (valueOperand names (showValue names v)).map f = some (f v) := by
  rw [valueOperand_showValue hnames, Option.map_some]

/-- Assembling reads back the operand that a listing shows, in each of the three formats (30_encoding R64). -/
theorem assemble?_showOperand {i : Instr} (hwf : i.wf = true) :
    assemble? (mnemonicOf i) (showOperand i) = some i := by
  cases i with
  | getCoef k => exact if_pos hwf
  | setMode v => exact map_valueOperand_showValue (names := modeNames) .setMode v (by decide)
  | setOsrsT v => exact map_valueOperand_showValue (names := osrsNames) .setOsrsT v (by decide)
  | setOsrsP v => exact map_valueOperand_showValue (names := osrsNames) .setOsrsP v (by decide)
  | setStandby v => exact map_valueOperand_showValue (names := standbyNames) .setStandby v (by decide)
  | setFilter v => exact map_valueOperand_showValue (names := filterNames) .setFilter v (by decide)
  | _ => rfl

/-- Settles O15: the assembler takes the arm of the mnemonic, and that arm reads the operand back. -/
theorem assembleOfListing : Obligations.AssembleOfListing := fun _ => assemble?_showOperand

end Sys2Proof.Machine

/-! ## The trimming table (40_trimming R71 to R77)

The twelve coefficient registers are one list in the order of GET_COEF, and the decoder fills it with the words of the
block in their order. Only INIT writes the table, and INIT is refused outside UNINIT: that keeps the table through every
run without a hardware reset. -/

namespace Sys2Proof.Machine

/-! ### Once loaded, the table stays -/

theorem core_run_succ {s u : State} (hstep : step s = .next u) (n : Nat) :
    Sys2Proof.core.run (n + 1) s = Sys2Proof.core.run n u := by
  have hcore : Sys2Proof.core.step s = .next u := hstep
  simp only [Host.Core.run, hcore]

/-- What every step keeps is kept by a run. -/
theorem core_run_induction {P : State → Prop} (hkeep : ∀ u v, P u → step u = .next v → P v) :
    ∀ {n : Nat} {s t : State}, P s → Sys2Proof.core.run n s = .next t → P t
  | 0, _, _, hs, hrun => by
    cases hrun
    exact hs
  | n + 1, s, t, hs, hrun => by
    obtain ⟨u, hu⟩ := step_answers s
    exact core_run_induction hkeep (hkeep s u hs hu) ((core_run_succ hu n).symm.trans hrun)

/-- Outside UNINIT no command changes a coefficient or the driver state (40_trimming R75): INIT, which alone would, is
refused there, and UPDATE ends in the state READY in which it started. -/
theorem exec_keeps_trim_drv {i : Instr} {s t : State} (hs : s.drv ≠ .uninit) (hexec : exec i s = .next t) :
    t.trim = s.trim ∧ t.drv = s.drv := by
  cases exec_cases hexec with
  | initDone _ _ _ huninit => exact absurd huninit hs
  | updateDone _ _ _ _ hready => exact ⟨rfl, hready.symm⟩
  | _ => exact ⟨rfl, rfl⟩

theorem runWord_keeps_trim_drv {w : Word16} {s t : State} (hs : s.drv ≠ .uninit) (hrun : runWord w s = .next t) :
    t.trim = s.trim ∧ t.drv = s.drv := by
  cases hw : decode w with
  | command i =>
    rw [runWord, hw] at hrun
    exact exec_keeps_trim_drv hs hrun
  | illegal e =>
    rw [runWord_illegal hw] at hrun
    cases hrun
    exact ⟨rfl, rfl⟩

/-- The table is `c` and the driver has left UNINIT, and no hardware reset is to come. -/
structure LoadedForGood (c : TrimTable) (s : State) : Prop where
  trim : s.trim = c
  drv : s.drv ≠ .uninit
  commands : ∀ x ∈ s.host, x.isCommand = true

theorem step_keeps_loadedForGood {c : TrimTable} {s t : State} (h : LoadedForGood c s) (hstep : step s = .next t) :
    LoadedForGood c t := by
  cases hhost : s.host with
  | nil =>
    cases hbusy : s.busy with
    | true =>
      rw [step_nil_busy hbusy hhost] at hstep
      cases hstep
      exact h
    | false =>
      rw [step_nil_idle hbusy hhost] at hstep
      cases hstep
      exact { h with }
  | cons input rest =>
    obtain ⟨hinput, hrest⟩ := List.forall_mem_cons.mp (hhost ▸ h.commands)
    cases input with
    | cmd w =>
      cases hbusy : s.busy with
      | true =>
        rw [step_cmd_busy hbusy hhost] at hstep
        cases hstep
        exact h
      | false =>
        rw [step_cmd hbusy hhost] at hstep
        obtain ⟨htrim, hdrv⟩ := runWord_keeps_trim_drv (s := accept rest s) h.drv hstep
        obtain ⟨-, -, -, hremaining⟩ := (runWord_responds hstep).port
        exact ⟨htrim.trans h.trim, hdrv ▸ h.drv, hremaining ▸ hrest⟩
    | rst => cases hinput
    | cmdThenRst w k inside => cases hinput

/-- Settles O20: a table loaded for good is kept by every step, hence by every run. -/
theorem coefficientsImmutableOnceLoaded : Obligations.CoefficientsImmutableOnceLoaded := fun _ s _ hs hcommands hrun =>
  have ⟨htrim, hdrv, _⟩ := core_run_induction (P := LoadedForGood s.trim) (fun _ _ => step_keeps_loadedForGood)
    ⟨rfl, hs, hcommands⟩ hrun
  ⟨htrim, hdrv⟩

/-! ### Words, masks and ranges -/

/-- The two bytes of a word do not overlap (40_trimming R71). -/
theorem trimWord_toNat (b : List Byte) (k : Nat) :
    (trimWord b k).toNat = (byteAt b (2 * k)).toNat + 256 * (byteAt b (2 * k + 1)).toNat := by
  have hlt : (byteAt b (2 * k)).toNat < 2 ^ 8 := (byteAt b (2 * k)).isLt
  have hlow : ((byteAt b (2 * k)).setWidth 16).toNat = (byteAt b (2 * k)).toNat :=
    BitVec.toNat_setWidth_of_le (by decide)
  have hhigh : ((byteAt b (2 * k + 1)).setWidth 16 <<< 8).toNat = 2 ^ 8 * (byteAt b (2 * k + 1)).toNat := by
    have hbyte := (byteAt b (2 * k + 1)).isLt
    rw [BitVec.toNat_shiftLeft, BitVec.toNat_setWidth, Nat.shiftLeft_eq]
    omega
  rw [trimWord, BitVec.toNat_or, hlow, hhigh, Nat.or_comm, ← Nat.two_pow_add_eq_or_of_lt hlt, Nat.add_comm]

/-- Settles O16: the rule's example is the general fact at its two bytes. -/
theorem trimWordsAreLittleEndian : Obligations.TrimWordsAreLittleEndian :=
  ⟨trimWord_toNat, fun b hlow hhigh => by rw [trimWord_toNat, hlow, hhigh]; rfl⟩

/-- The words of the mask `0xF80` (40_trimming R73, decision D5): twelve bits to look at, and no bit beyond them. -/
theorem rebaseMask_getLsbD (k : Nat) : rebaseMask.getLsbD k = true ↔ 7 ≤ k ∧ k ≤ 11 := by
  have hbits : ∀ j < 12, rebaseMask.getLsbD j = true ↔ 7 ≤ j ∧ j ≤ 11 := by decide
  obtain hk | hk := Nat.lt_or_ge k 12
  · exact hbits k hk
  · rw [BitVec.getLsbD_of_ge _ _ hk]
    exact iff_of_false Bool.false_ne_true (by omega)

/-- Settles O17: how a word is read depends on its mask bit alone, and the mask's bits are known. -/
theorem rebaseReadsSignedOrUnsigned : Obligations.RebaseReadsSignedOrUnsigned := ⟨rebase_toInt, rebaseMask_getLsbD⟩

/-- The ranges under the mask `0xFF6` (40_trimming R74): words 0 and 3 are the unsigned ones. -/
theorem decodeTrim_rangesFF6 (b : List Byte) : RangesFF6 (decodeTrim rebaseMaskTypeList b) :=
  ⟨rebase_inU16 rfl _, rebase_inS16 rfl _, rebase_inS16 rfl _, rebase_inU16 rfl _, rebase_inS16 rfl _,
    rebase_inS16 rfl _, rebase_inS16 rfl _, rebase_inS16 rfl _, rebase_inS16 rfl _, rebase_inS16 rfl _,
    rebase_inS16 rfl _, rebase_inS16 rfl _⟩

/-- Settles O18: each coefficient's range follows from its mask bit. -/
theorem loadedCoefficientRanges : Obligations.LoadedCoefficientRanges := fun b =>
  ⟨decodeTrim_rangesF80 b, decodeTrim_rangesFF6 b⟩

/-! ### The registers in the order of GET_COEF -/

/-- The coefficient registers in the order of GET_COEF (40_trimming R77). -/
def TrimTable.registers (t : TrimTable) : List Coef :=
  [t.d1, t.d2, t.d3, t.p1, t.p2, t.p3, t.p4, t.p5, t.p6, t.p7, t.p8, t.p9]

theorem registers_getElem? (t : TrimTable) {k : Nat} (hk : k < 12) : t.registers[k]? = some (coefOf t k) := by
  have hlen : k < t.registers.length := hk
  rw [List.getElem?_eq_getElem hlen]
  exact congrArg some (List.getD_eq_getElem t.registers 0 hlen).symm

/-- The decoder takes the words in the order of the registers (40_trimming R72). -/
theorem registers_decodeTrim (mask : BitVec 12) (b : List Byte) :
    (decodeTrim mask b).registers = (List.range 12).map (trimCoef mask b) := rfl

/-- Settles O58: the registers are the words in order, and GET_COEF takes them in that order. -/
theorem trimWordsGoToTheirRegisters : Obligations.TrimWordsGoToTheirRegisters := fun mask b k hk => by
  have hword : (decodeTrim mask b).registers[k]? = some (trimCoef mask b k) := by
    rw [registers_decodeTrim, List.getElem?_map, List.getElem?_range hk, Option.map_some]
  exact ⟨hword, Option.some.inj ((registers_getElem? _ hk).symm.trans hword)⟩

/-- GET_COEF at a loaded table and a legal index (40_trimming R77). -/
theorem exec_getCoef_eq {s : State} {k : Byte} (hs : s.drv ≠ .uninit) (hk : k.toNat ≤ 11) :
    exec (.getCoef k) s = .next (respond .ok (sextLane (coefOf s.trim k.toNat)) 0 s) := by
  rw [exec, execGetCoef, if_neg (Nat.not_lt.mpr hk), if_neg hs]

theorem sextLane_toInt (c : Coef) : (sextLane c).toInt = c.toInt := BitVec.toInt_signExtend_of_le (by decide)

/-- Settles O19: GET_COEF answers the register in its place, and sign extension keeps the number. -/
theorem getCoefReturnsCoefficient : Obligations.GetCoefReturnsCoefficient := fun s k hs hk => by
  refine ⟨_, exec_getCoef_eq hs hk, ?_⟩
  calc some (sextLane (coefOf s.trim k.toNat)).toInt
    _ = (some (coefOf s.trim k.toNat)).map BitVec.toInt := by rw [sextLane_toInt, Option.map_some]
    _ = (s.trim.registers.map BitVec.toInt)[k.toNat]? := by
      rw [List.getElem?_map, registers_getElem? _ (Nat.lt_succ_of_le hk)]

end Sys2Proof.Machine

/-! ## Configuration: the setters and the getters (41_configuration R80 to R95)

A configuration byte is the sum of its fields at their places, so packing and unpacking are inverse, and a byte is known
by its fields. A setter refuses, or stores its field and writes the whole shadow once; a getter reads `DRV_STATE` and
one field of a shadow. -/

namespace Sys2Proof.Machine

/-! ### The configuration bytes -/

/-- The three fields of `CTRL_MEAS_SH` do not overlap (41_configuration R80). -/
theorem packCtrl_toNat {t p m : Byte} (ht : t.toNat ≤ 7) (hp : p.toNat ≤ 7) (hm : m.toNat ≤ 3) :
    (packCtrl t p m).toNat = 32 * t.toNat + 4 * p.toNat + m.toNat := by
  have htp : t.toNat <<< 5 % 256 ||| p.toNat <<< 2 % 256 = (8 * t.toNat + p.toNat) <<< 2 := by
    rw [Nat.mod_eq_of_lt (by omega), Nat.mod_eq_of_lt (by omega), ← Nat.shiftLeft_add_eq_or_of_lt (by omega)]
    omega
  calc (packCtrl t p m).toNat
    _ = (t.toNat <<< 5 % 256 ||| p.toNat <<< 2 % 256) ||| m.toNat := by simp [packCtrl]
    _ = (8 * t.toNat + p.toNat) <<< 2 + m.toNat := by rw [htp, Nat.shiftLeft_add_eq_or_of_lt (by omega)]
    _ = 32 * t.toNat + 4 * p.toNat + m.toNat := by omega

/-- `CONFIG_SH` is packed like `CTRL_MEAS_SH`, with zeros in place of a mode (41_configuration R81). -/
theorem packConfig_eq_packCtrl (a f : Byte) : packConfig a f = packCtrl a f 0 := (BitVec.or_zero).symm

theorem packConfig_toNat {a f : Byte} (ha : a.toNat ≤ 7) (hf : f.toNat ≤ 7) :
    (packConfig a f).toNat = 32 * a.toNat + 4 * f.toNat := by
  rw [packConfig_eq_packCtrl, packCtrl_toNat (m := 0) ha hf (Nat.zero_le 3)]
  rfl

/-- Settles O21: the sums of the fields at their places, and the rules' examples by evaluation. -/
theorem packedBytes : Obligations.PackedBytes :=
  ⟨fun _ _ _ => packCtrl_toNat, fun _ _ => packConfig_toNat, rfl, rfl, rfl, rfl, rfl, rfl⟩

theorem unpackCtrl_packCtrl {t p m : Byte} (ht : t.toNat ≤ 7) (hp : p.toNat ≤ 7) (hm : m.toNat ≤ 3) :
    unpackCtrl (packCtrl t p m) = (t, p, m) := by
  have hsum := packCtrl_toNat ht hp hm
  obtain ⟨hosrsT, hosrsP, hmode, -, -⟩ := fieldOf_toNat (packCtrl t p m)
  simp only [unpackCtrl, Prod.mk.injEq, ← BitVec.toNat_inj]
  omega

theorem unpackConfig_packConfig {a f : Byte} (ha : a.toNat ≤ 7) (hf : f.toNat ≤ 7) :
    unpackConfig (packConfig a f) = (a, f) := by
  have hsum := packConfig_toNat ha hf
  obtain ⟨-, -, -, hstandby, hfilter⟩ := fieldOf_toNat (packConfig a f)
  simp only [unpackConfig, Prod.mk.injEq, ← BitVec.toNat_inj]
  omega

/-- A byte is its three fields (41_configuration R82). -/
theorem packCtrl_fields (b : Byte) : packCtrl (osrsTField b) (osrsPField b) (modeField b) = b := by
  have hb : b.toNat < 256 := b.isLt
  obtain ⟨hosrsT, hosrsP, hmode, -, -⟩ := fieldOf_toNat b
  apply BitVec.eq_of_toNat_eq
  rw [packCtrl_toNat (by omega) (by omega) (by omega)]
  omega

/-- Clearing bits 1:0 leaves a multiple of 4. -/
theorem and_FC_toNat (b : Byte) : (b &&& 0xFC).toNat = b.toNat / 4 * 4 := by
  have hb : b.toNat < 256 := b.isLt
  have hmask : b &&& (0xFC : Byte) = b >>> 2 <<< 2 := (BitVec.shiftLeft_ushiftRight (x := b) (n := 2)).symm
  rw [hmask, BitVec.toNat_shiftLeft, BitVec.toNat_ushiftRight]
  omega

/-- The two fields of `CONFIG_SH` are the byte but for its bits 1:0 (41_configuration R82). -/
theorem packConfig_fields (b : Byte) : packConfig (standbyField b) (filterField b) = b &&& 0xFC := by
  have hb : b.toNat < 256 := b.isLt
  obtain ⟨-, -, -, hstandby, hfilter⟩ := fieldOf_toNat b
  apply BitVec.eq_of_toNat_eq
  rw [packConfig_toNat (by omega) (by omega), and_FC_toNat]
  omega

/-- Settles O22: the fields of a sum are its digits, and a byte is the sum of its fields. -/
theorem unpackInvertsPack : Obligations.UnpackInvertsPack :=
  ⟨fun _ _ _ => unpackCtrl_packCtrl, fun _ _ => unpackConfig_packConfig, packCtrl_fields, packConfig_fields⟩

/-! ### Replacing one field is packing anew (41_configuration R95) -/

/-- A byte with known fields is their packing. -/
theorem eq_packCtrl {b t p m : Byte} (ht : osrsTField b = t) (hp : osrsPField b = p) (hm : modeField b = m) :
    b = packCtrl t p m := by
  rw [← ht, ← hp, ← hm, packCtrl_fields]

/-- A byte with bits 1:0 cleared and with known fields is their packing. -/
theorem eq_packConfig {b a f : Byte} (ha : standbyField (b &&& 0xFC) = a) (hf : filterField (b &&& 0xFC) = f) :
    b &&& 0xFC = packConfig a f := by
  rw [← ha, ← hf, packConfig_fields, BitVec.and_assoc, BitVec.and_self]

theorem withField_mode {v : Byte} (hv : legalMode v = true) (b : Byte) :
    withField b 0 2 v = packCtrl (osrsTField b) (osrsPField b) v :=
  have ⟨hmode, hosrsT, hosrsP⟩ := storeMode_fields v hv b
  eq_packCtrl hosrsT hosrsP hmode

theorem withField_osrsT {v : Byte} (hv : legalOsrs v = true) (b : Byte) :
    withField b 5 3 v = packCtrl v (osrsPField b) (modeField b) :=
  have ⟨hosrsT, hosrsP, hmode⟩ := storeOsrsT_fields v hv b
  eq_packCtrl hosrsT hosrsP hmode

theorem withField_osrsP {v : Byte} (hv : legalOsrs v = true) (b : Byte) :
    withField b 2 3 v = packCtrl (osrsTField b) v (modeField b) :=
  have ⟨hosrsP, hosrsT, hmode⟩ := storeOsrsP_fields v hv b
  eq_packCtrl hosrsT hosrsP hmode

theorem withField_standby {v : Byte} (hv : legalStandby v = true) (b : Byte) :
    withField b 5 3 v &&& 0xFC = packConfig v (filterField b) :=
  have ⟨hstandby, hfilter, _⟩ := storeStandby_fields v hv b
  eq_packConfig hstandby hfilter

theorem withField_filter {v : Byte} (hv : legalFilter v = true) (b : Byte) :
    withField b 2 3 v &&& 0xFC = packConfig (standbyField b) v :=
  have ⟨hfilter, hstandby, _⟩ := storeFilter_fields v hv b
  eq_packConfig hstandby hfilter

/-- Settles O23: the stored byte has the new value and the other fields, and its fields determine it. -/
theorem readModifyWriteIsRepacking : Obligations.ReadModifyWriteIsRepacking := fun b _ =>
  ⟨(withField_mode · b), (withField_osrsT · b), (withField_osrsP · b), (withField_standby · b), (withField_filter · b)⟩

/-! ### What a setter leaves (41_configuration R83) -/

/-- `s` after a setter has stored `b` in `CTRL_MEAS_SH` and written it, the write completed or failed. -/
def ctrlWritten (b : Byte) (done : Bool) (s : State) : State :=
  respond (if done then .ok else .busError) 0 0 (onBus 1 [.write 0xF4 b done] { s with ctrlMeasSh := b })

/-- `s` after a setter has stored `b` in `CONFIG_SH` and written it, the write completed or failed. -/
def configWritten (b : Byte) (done : Bool) (s : State) : State :=
  respond (if done then .ok else .busError) 0 0 (onBus 1 [.write 0xF5 b done] { s with configSh := b })

section
variable {s : State} {done legal : Bool} (hs : s.drv ≠ .uninit) (hdone : writeDone (answerAt s 0) = done)
  (hlegal : legal = true)
include hs hdone hlegal

theorem setter_ctrl_legal (shift width : Nat) (v : Byte) :
    setter legal (storeCtrlField shift width v) addrCtrlMeas State.ctrlMeasSh s =
      ctrlWritten (withField s.ctrlMeasSh shift width v) done s := by
  rw [setter_ctrl_eq, if_neg hs, if_neg (ne_false_of_eq_true hlegal), hdone, ctrlWritten]

theorem setter_config_legal (shift width : Nat) (v : Byte) :
    setter legal (storeConfigField shift width v) addrConfig State.configSh s =
      configWritten (withField s.configSh shift width v &&& 0xFC) done s := by
  rw [setter_config_eq, if_neg hs, if_neg (ne_false_of_eq_true hlegal), hdone, configWritten]

end

section
variable {s : State} {v : Byte} {done : Bool} (hs : s.drv ≠ .uninit) (hdone : writeDone (answerAt s 0) = done)
include hs hdone

theorem exec_setMode_legal (hv : legalMode v = true) :
    exec (.setMode v) s = .next
      (ctrlWritten (packCtrl (osrsTField s.ctrlMeasSh) (osrsPField s.ctrlMeasSh) v) done s) := by
  rw [exec, execSetMode, setter_ctrl_legal hs hdone hv, withField_mode hv]

theorem exec_setOsrsT_legal (hv : legalOsrs v = true) :
    exec (.setOsrsT v) s = .next
      (ctrlWritten (packCtrl v (osrsPField s.ctrlMeasSh) (modeField s.ctrlMeasSh)) done s) := by
  rw [exec, execSetOsrsT, setter_ctrl_legal hs hdone hv, withField_osrsT hv]

theorem exec_setOsrsP_legal (hv : legalOsrs v = true) :
    exec (.setOsrsP v) s = .next
      (ctrlWritten (packCtrl (osrsTField s.ctrlMeasSh) v (modeField s.ctrlMeasSh)) done s) := by
  rw [exec, execSetOsrsP, setter_ctrl_legal hs hdone hv, withField_osrsP hv]

theorem exec_setStandby_legal (hv : legalStandby v = true) :
    exec (.setStandby v) s = .next (configWritten (packConfig v (filterField s.configSh)) done s) := by
  rw [exec, execSetStandby, setter_config_legal hs hdone hv, withField_standby hv]

theorem exec_setFilter_legal (hv : legalFilter v = true) :
    exec (.setFilter v) s = .next (configWritten (packConfig (standbyField s.configSh) v) done s) := by
  rw [exec, execSetFilter, setter_config_legal hs hdone hv, withField_filter hv]

end

/-- Settles O25: the setters' next states, by the legal sets as numbers, where the write completed. -/
theorem settersStoreAndWriteOnce : Obligations.SettersStoreAndWriteOnce := fun s v hs hdone => by
  obtain ⟨hmode, hosrs, hstandby, hfilter⟩ := legalSets v
  exact ⟨fun hv => exec_setMode_legal hs hdone (hmode.mpr hv), fun hv => exec_setOsrsT_legal hs hdone (hosrs.mpr hv),
    fun hv => exec_setOsrsP_legal hs hdone (hosrs.mpr hv),
    fun hv => exec_setStandby_legal hs hdone (hstandby.mpr hv),
    fun hv => exec_setFilter_legal hs hdone (hfilter.mpr hv)⟩

/-- Settles O26: the same next states, where the write failed: the store came before it. -/
theorem failedSetterKeepsNewShadow : Obligations.FailedSetterKeepsNewShadow := fun s v hs hfailed => by
  obtain ⟨hmode, hosrs, hstandby, hfilter⟩ := legalSets v
  exact ⟨fun hv => exec_setMode_legal hs hfailed (hmode.mpr hv),
    fun hv => exec_setOsrsT_legal hs hfailed (hosrs.mpr hv), fun hv => exec_setOsrsP_legal hs hfailed (hosrs.mpr hv),
    fun hv => exec_setStandby_legal hs hfailed (hstandby.mpr hv),
    fun hv => exec_setFilter_legal hs hfailed (hfilter.mpr hv)⟩

/-! ### The frame of the setters -/

/-- From `s` to `t` the bus gained nothing, or the one write of `b`, completed or failed. -/
def WroteAtMost (addr b : Byte) (s t : State) : Prop :=
  t.trace = s.trace ∨ t.trace = s.trace ++ [.write addr b true] ∨ t.trace = s.trace ++ [.write addr b false]

theorem wroteAtMost_of_trace {addr b : Byte} {s t : State} {done : Bool}
    (h : t.trace = s.trace ++ [.write addr b done]) : WroteAtMost addr b s t := by
  cases done with
  | false => exact .inr (.inr h)
  | true => exact .inr (.inl h)

/-- Beside the response and the bus only `CTRL_MEAS_SH` changed, it was written at most once, and its fields `f` and `g`
are kept. -/
def CtrlFrame (f g : Byte → Byte) (s t : State) : Prop :=
  t = { s with
    ctrlMeasSh := t.ctrlMeasSh, rsp := t.rsp, busy := t.busy, cmdIndex := t.cmdIndex, script := t.script,
    busCount := t.busCount, trace := t.trace } ∧
    WroteAtMost 0xF4 t.ctrlMeasSh s t ∧ f t.ctrlMeasSh = f s.ctrlMeasSh ∧ g t.ctrlMeasSh = g s.ctrlMeasSh

/-- Beside the response and the bus only `CONFIG_SH` changed, it was written at most once, and its field `f` is kept. -/
def ConfigFrame (f : Byte → Byte) (s t : State) : Prop :=
  t = { s with
    configSh := t.configSh, rsp := t.rsp, busy := t.busy, cmdIndex := t.cmdIndex, script := t.script,
    busCount := t.busCount, trace := t.trace } ∧
    WroteAtMost 0xF5 t.configSh s t ∧ f t.configSh = f s.configSh

theorem setter_ctrl_frame {legal : Bool} {shift width : Nat} {v : Byte} {s : State} {f g : Byte → Byte}
    (hkept : legal = true → f (withField s.ctrlMeasSh shift width v) = f s.ctrlMeasSh ∧
      g (withField s.ctrlMeasSh shift width v) = g s.ctrlMeasSh) :
    CtrlFrame f g s (setter legal (storeCtrlField shift width v) addrCtrlMeas State.ctrlMeasSh s) := by
  rw [setter_ctrl_eq]
  split
  · exact ⟨rfl, .inl rfl, rfl, rfl⟩
  split
  · exact ⟨rfl, .inl rfl, rfl, rfl⟩
  next hlegal => exact ⟨rfl, wroteAtMost_of_trace rfl, hkept (Bool.eq_true_of_not_eq_false hlegal)⟩

theorem setter_config_frame {legal : Bool} {shift width : Nat} {v : Byte} {s : State} {f : Byte → Byte}
    (hkept : legal = true → f (withField s.configSh shift width v &&& 0xFC) = f s.configSh) :
    ConfigFrame f s (setter legal (storeConfigField shift width v) addrConfig State.configSh s) := by
  rw [setter_config_eq]
  split
  · exact ⟨rfl, .inl rfl, rfl⟩
  split
  · exact ⟨rfl, .inl rfl, rfl⟩
  next hlegal => exact ⟨rfl, wroteAtMost_of_trace rfl, hkept (Bool.eq_true_of_not_eq_false hlegal)⟩

theorem exec_setMode_frame {s t : State} {v : Byte} (h : exec (.setMode v) s = .next t) :
    CtrlFrame osrsTField osrsPField s t := by
  cases h
  exact setter_ctrl_frame fun hv => (storeMode_fields v hv s.ctrlMeasSh).2

theorem exec_setOsrsT_frame {s t : State} {v : Byte} (h : exec (.setOsrsT v) s = .next t) :
    CtrlFrame osrsPField modeField s t := by
  cases h
  exact setter_ctrl_frame fun hv => (storeOsrsT_fields v hv s.ctrlMeasSh).2

theorem exec_setOsrsP_frame {s t : State} {v : Byte} (h : exec (.setOsrsP v) s = .next t) :
    CtrlFrame osrsTField modeField s t := by
  cases h
  exact setter_ctrl_frame fun hv => (storeOsrsP_fields v hv s.ctrlMeasSh).2

theorem exec_setStandby_frame {s t : State} {v : Byte} (h : exec (.setStandby v) s = .next t) :
    ConfigFrame filterField s t := by
  cases h
  exact setter_config_frame fun hv => (storeStandby_fields v hv s.configSh).2.1

theorem exec_setFilter_frame {s t : State} {v : Byte} (h : exec (.setFilter v) s = .next t) :
    ConfigFrame standbyField s t := by
  cases h
  exact setter_config_frame fun hv => (storeFilter_fields v hv s.configSh).2.1

/-- Settles O56: a refusal only answers, and a store keeps the other fields of the byte. -/
theorem frameOfSetters : Obligations.FrameOfSetters := fun _ _ _ =>
  ⟨exec_setMode_frame, exec_setOsrsT_frame, exec_setOsrsP_frame, exec_setStandby_frame, exec_setFilter_frame⟩

/-! ### The readers and the getters (41_configuration R89 to R94) -/

/-- Settles O55: a reader's whole effect is its response. -/
theorem frameOfReaders : Obligations.FrameOfReaders := fun i s t hreader hexec => by
  obtain ⟨st, d0, hresponds, -⟩ := exec_reader i s hreader
  rw [hresponds] at hexec
  cases hexec
  rfl

/-- A getter in a driver state that allows it, by the number its field is. -/
theorem getter_reports {value : State → Byte} {s : State} {n : Nat} (hs : s.drv ≠ .uninit)
    (hn : (value s).toNat = n) : getter value s = respond .ok (BitVec.ofNat 64 n) 0 s := by
  rw [getter_eq, if_neg hs, zextLane, ← hn, BitVec.ofNat_toNat]

/-- Settles O28: each field is the quotient and remainder of its place. -/
theorem gettersReportFields : Obligations.GettersReportFields := fun s hs => by
  obtain ⟨hosrsT, hosrsP, hmode, -, -⟩ := fieldOf_toNat s.ctrlMeasSh
  obtain ⟨-, -, -, hstandby, hfilter⟩ := fieldOf_toNat s.configSh
  exact ⟨congrArg _ (getter_reports hs hmode), congrArg _ (getter_reports hs hosrsT),
    congrArg _ (getter_reports hs hosrsP), congrArg _ (getter_reports hs hstandby),
    congrArg _ (getter_reports hs hfilter)⟩

/-- What a getter answers, by the driver state and its field. -/
def getterResponse (d : DrvState) (b : Byte) : Response :=
  if d = .uninit then ⟨.stateError, 0, 0⟩ else ⟨.ok, zextLane b, 0⟩

theorem getter_rsp (value : State → Byte) (s : State) :
    (getter value s).rsp = some (getterResponse s.drv (value s)) := by
  rw [getter_eq, getterResponse]
  split <;> rfl

/-- The fields of the two shadows, in the order of their getters (30_encoding R51). -/
def shadowFields (ctrl config : Byte) : List Byte :=
  [modeField ctrl, osrsTField ctrl, osrsPField ctrl, standbyField config, filterField config]

/-- What the five getters answer in a state. -/
def getterAnswers (u : State) : List (Option Response) :=
  [responseOf .getMode u, responseOf .getOsrsT u, responseOf .getOsrsP u, responseOf .getStandby u,
    responseOf .getFilter u]

/-- The getters look at nothing but `DRV_STATE` and the shadows. -/
theorem getterAnswers_eq (u : State) :
    getterAnswers u = (shadowFields u.ctrlMeasSh u.configSh).map fun b => some (getterResponse u.drv b) := by
  simp [getterAnswers, shadowFields, responseOf, exec, execGetMode, execGetOsrsT, execGetOsrsP, execGetStandby,
    execGetFilter, getter_rsp]

/-- Outside UNINIT, replacing one field replaces the answer of its getter. -/
theorem getterAnswers_of_set {s t : State} {v : Byte} {k : Nat} (hs : s.drv ≠ .uninit) (hdrv : t.drv = s.drv)
    (hfields : shadowFields t.ctrlMeasSh t.configSh = (shadowFields s.ctrlMeasSh s.configSh).set k v) :
    getterAnswers t = (getterAnswers s).set k (some ⟨.ok, zextLane v, 0⟩) := by
  have hvalue : getterResponse s.drv v = ⟨.ok, zextLane v, 0⟩ := if_neg hs
  rw [getterAnswers_eq, getterAnswers_eq, hfields, hdrv, List.map_set, hvalue]

theorem setter_ctrl_answers {s : State} {legal : Bool} {shift width k : Nat} {v : Byte} (hs : s.drv ≠ .uninit)
    (hlegal : legal = true)
    (hfields : shadowFields (withField s.ctrlMeasSh shift width v) s.configSh =
      (shadowFields s.ctrlMeasSh s.configSh).set k v) :
    getterAnswers (setter legal (storeCtrlField shift width v) addrCtrlMeas State.ctrlMeasSh s) =
      (getterAnswers s).set k (some ⟨.ok, zextLane v, 0⟩) := by
  rw [setter_ctrl_legal hs rfl hlegal]
  exact getterAnswers_of_set hs rfl hfields

theorem setter_config_answers {s : State} {legal : Bool} {shift width k : Nat} {v : Byte} (hs : s.drv ≠ .uninit)
    (hlegal : legal = true)
    (hfields : shadowFields s.ctrlMeasSh (withField s.configSh shift width v &&& 0xFC) =
      (shadowFields s.ctrlMeasSh s.configSh).set k v) :
    getterAnswers (setter legal (storeConfigField shift width v) addrConfig State.configSh s) =
      (getterAnswers s).set k (some ⟨.ok, zextLane v, 0⟩) := by
  rw [setter_config_legal hs rfl hlegal]
  exact getterAnswers_of_set hs rfl hfields

section
variable {v : Byte} (ctrl config : Byte)

theorem shadowFields_mode (hv : legalMode v = true) :
    shadowFields (withField ctrl 0 2 v) config = (shadowFields ctrl config).set 0 v := by
  obtain ⟨hmode, hosrsT, hosrsP⟩ := storeMode_fields v hv ctrl
  rw [shadowFields, hmode, hosrsT, hosrsP]
  rfl

theorem shadowFields_osrsT (hv : legalOsrs v = true) :
    shadowFields (withField ctrl 5 3 v) config = (shadowFields ctrl config).set 1 v := by
  obtain ⟨hosrsT, hosrsP, hmode⟩ := storeOsrsT_fields v hv ctrl
  rw [shadowFields, hmode, hosrsT, hosrsP]
  rfl

theorem shadowFields_osrsP (hv : legalOsrs v = true) :
    shadowFields (withField ctrl 2 3 v) config = (shadowFields ctrl config).set 2 v := by
  obtain ⟨hosrsP, hosrsT, hmode⟩ := storeOsrsP_fields v hv ctrl
  rw [shadowFields, hmode, hosrsT, hosrsP]
  rfl

theorem shadowFields_standby (hv : legalStandby v = true) :
    shadowFields ctrl (withField config 5 3 v &&& 0xFC) = (shadowFields ctrl config).set 3 v := by
  obtain ⟨hstandby, hfilter, -⟩ := storeStandby_fields v hv config
  rw [shadowFields, hstandby, hfilter]
  rfl

theorem shadowFields_filter (hv : legalFilter v = true) :
    shadowFields ctrl (withField config 2 3 v &&& 0xFC) = (shadowFields ctrl config).set 4 v := by
  obtain ⟨hfilter, hstandby, -⟩ := storeFilter_fields v hv config
  rw [shadowFields, hstandby, hfilter]
  rfl

end

/-- A command that ends neither OK nor BUS_ERROR has only answered (60_exceptions R148). -/
theorem exec_rejected {i : Instr} {s t : State} {r : Response} (h : exec i s = .next t) (hr : t.rsp = some r)
    (hok : r.status ≠ .ok) (hbus : r.status ≠ .busError) : ∃ d0, t = respond r.status d0 0 s := by
  cases exec_cases h with
  | answered st d0 =>
    cases hr
    exact ⟨d0, rfl⟩
  | initDone | updateDone =>
    cases hr
    exact absurd rfl hok
  | initFailed | updateFailed =>
    cases hr
    exact absurd rfl hbus
  | resetWrote done | ctrlStored done | configStored done =>
    cases hr
    cases done with
    | false => exact absurd rfl hbus
    | true => exact absurd rfl hok

/-- Settles O29: a stored field is the one its getter answers, and a refusal leaves all that the getters look at. -/
theorem setThenGetReturnsValue : Obligations.SetThenGetReturnsValue := by
  refine ⟨fun s t v hs => ⟨?_, ?_, ?_, ?_, ?_⟩, fun i s t r _ hexec hr hst => ?_⟩
  · rintro hv ⟨⟩
    exact setter_ctrl_answers hs hv (shadowFields_mode _ _ hv)
  · rintro hv ⟨⟩
    exact setter_ctrl_answers hs hv (shadowFields_osrsT _ _ hv)
  · rintro hv ⟨⟩
    exact setter_ctrl_answers hs hv (shadowFields_osrsP _ _ hv)
  · rintro hv ⟨⟩
    exact setter_config_answers hs hv (shadowFields_standby _ _ hv)
  · rintro hv ⟨⟩
    exact setter_config_answers hs hv (shadowFields_filter _ _ hv)
  · have hrejected : r.status ≠ .ok ∧ r.status ≠ .busError := by
      obtain hst | hst := hst <;> simp [hst]
    obtain ⟨d0, rfl⟩ := exec_rejected hexec hr hrejected.1 hrejected.2
    exact (getterAnswers_eq _).trans (getterAnswers_eq s).symm

end Sys2Proof.Machine

/-! ## The temperature pipeline (42_compensation R101 to R104) -/

namespace Sys2Proof.Machine

/-- Settles O30: each shift of the pipeline is, by definition, a floor division by its power of two. -/
theorem fineTemperatureFormula : Obligations.FineTemperatureFormula := fun _ _ _ _ => rfl

/-- A product over two ranges, the first around 0, is bounded by products of their ends. -/
theorem mul_bounds {x y lo hi lo' hi' : Int} (hlo : lo ≤ 0) (hhi : 0 ≤ hi) (hx : lo ≤ x ∧ x ≤ hi)
    (hy : lo' ≤ y ∧ y ≤ hi') : min (lo * hi') (hi * lo') ≤ x * y ∧ x * y ≤ max (hi * hi') (lo * lo') := by
  rcases le_total 0 y with h | h
  · exact ⟨min_le_of_left_le (by nlinarith), le_max_of_le_left (by nlinarith)⟩
  · exact ⟨min_le_of_right_le (by nlinarith), le_max_of_le_right (by nlinarith)⟩

/-- Settles O31: the three products are bounded by the ends of their factors' ranges; all else is linear. -/
theorem temperaturePipelineBounds : Obligations.TemperaturePipelineBounds := by
  intro T d1 d2 d3 hT hT' hd1 hd1' hd2 hd2' hd3 hd3' a m1 var1 b sq sh m2 var2
  have ha : -131070 ≤ a ∧ a ≤ 131071 := by omega
  have hm1 : -8589672450 ≤ m1 ∧ m1 ≤ 8589737985 := mul_bounds (by decide) (by decide) ha ⟨hd2, hd2'⟩
  have hb : -65535 ≤ b ∧ b ≤ 65535 := by omega
  have hsq : 0 ≤ sq ∧ sq ≤ 4294836225 := ⟨mul_self_nonneg b, (mul_bounds (by decide) (by decide) hb hb).2⟩
  have hsh : 0 ≤ sh ∧ sh ≤ 1048544 := by omega
  have hm2 : -34358689792 ≤ m2 ∧ m2 ≤ 68716331040 := mul_bounds (by decide) (by decide) hsh ⟨hd3, hd3'⟩
  have ht : tFineOf T d1 d2 d3 = var1 + var2 := fineTemperatureFormula T d1 d2 d3
  have hc : centiDegrees (tFineOf T d1 d2 d3) = (tFineOf T d1 d2 d3 * 5 + 128) / 256 := rfl
  omega

end Sys2Proof.Machine

/-! ## Exact conversions and the temperature (42_compensation R102, R108) -/

namespace Sys2Proof.Machine

/-- An integer of at most 53 bits is a binary64 number (42_compensation R108). -/
theorem f64Value_intToF {z : Int} (h : z.natAbs < 2 ^ 53) : f64Value (intToF z) = some (z : ℚ) := by
  have hsign : signedRat (decide (z < 0)) z.natAbs = (z : ℚ) := by
    simpa using signedRat_natAbs (neg := decide (z < 0)) (fun _ => rfl) 1
  unfold intToF roundTo64
  generalize decide (z < 0) = neg at hsign ⊢
  generalize z.natAbs = m at h hsign ⊢
  rw [← hsign]
  rcases Nat.eq_zero_or_pos m with rfl | hm
  · exact (f64Value_signed neg 0 (by decide)).trans (by simp [magValue, magMant])
  · -- shifted left to 53 significant bits, nothing is lost
    have hlog : Nat.log2 m ≤ 52 := Nat.le_of_lt_succ ((Nat.log2_lt hm.ne').mpr h)
    obtain ⟨k, hk⟩ := Nat.exists_eq_add_of_le hlog
    have hexp : roundExp m 0 = -(k : Int) := by
      unfold roundExp
      omega
    have hmant : roundMant m 0 = m * 2 ^ k := by
      rw [roundMant, hexp, if_pos (by omega), Nat.shiftLeft_eq]
      simp
    have hlo : 2 ^ 52 ≤ m * 2 ^ k := by
      rw [hk, pow_add]
      exact Nat.mul_le_mul_right _ (Nat.log2_self_le hm.ne')
    have hhi : m * 2 ^ k ≤ 2 ^ 53 := by
      rw [show 53 = Nat.log2 m + 1 + k by omega, pow_add 2 _ k]
      exact Nat.mul_le_mul_right _ Nat.lt_log2_self.le
    have hfin : (-(k : Int) + 1074).toNat * 2 ^ 52 + m * 2 ^ k < infMagnitude := by
      unfold infMagnitude
      omega
    rw [roundMagnitude, if_neg hm.ne', hexp, hmant, min_eq_right hfin.le, f64Value_signed neg _ hfin,
      magValue_build _ _ (by omega) (.inr hlo) hhi]
    simp

/-- Settles O33: an integer of 24 bits is one of 53. -/
theorem integerConversionExact : Obligations.IntegerConversionExact := fun _ _ _ => f64Value_intToF (by omega)

/-- Settles O34: `c` and 100 are converted exactly, so the one division rounds `c / 100`. -/
theorem temperatureIsRoundedHundredths : Obligations.TemperatureIsRoundedHundredths := fun tFine hlo hhi => by
  have hfloor : centiDegrees tFine = (5 * tFine + 128) / 256 := by
    rw [mul_comm]
    rfl
  have hc : f64Value (intToF (centiDegrees tFine)) = some (centiDegrees tFine : ℚ) := f64Value_intToF (by omega)
  have h100 : f64Value (intToF 100) = some 100 := f64Value_intToF (by decide)
  have hbound : |(centiDegrees tFine : ℚ) / 100| < 2 ^ 1023 := by
    have habs : |centiDegrees tFine| ≤ 2 ^ 53 := abs_le.mpr ⟨by omega, by omega⟩
    have habsQ : |(centiDegrees tFine : ℚ)| ≤ 2 ^ 53 := by exact_mod_cast habs
    calc |(centiDegrees tFine : ℚ) / 100| ≤ |(centiDegrees tFine : ℚ)| := by
          rw [abs_div]
          exact div_le_self (abs_nonneg _) (by norm_num)
      _ ≤ 2 ^ 53 := habsQ
      _ < 2 ^ 1023 := pow_lt_pow_right₀ one_lt_two (by decide)
  exact ⟨hfloor, (fdiv_roundsOnce hc h100 (by norm_num) hbound).2⟩

end Sys2Proof.Machine

/-! ## The pressure listing (42_compensation R106, R107) -/

namespace Sys2Proof.Machine

/-- Settles O59: these lines are the definitions of `v1`, `v2` and the divisor. -/
theorem pressureLinesBeforeTheTest : Obligations.PressureLinesBeforeTheTest :=
  fun _ _ _ _ _ _ _ => ⟨rfl, rfl, rfl⟩

/-- Line 21 of 42_compensation R107 (R106): a divisor that is a zero of either sign gives the pressure `+0.0`. -/
theorem compP_of_zero_divisor {tFine p1 p2 p3 : Int} (h : f64Value (presDivisor (presV1 tFine) p1 p2 p3) = some 0)
    (P p4 p5 p6 p7 p8 p9 : Int) : compP P tFine p1 p2 p3 p4 p5 p6 p7 p8 p9 = 0#64 :=
  if_pos ((isZero_iff _).mpr h)

/-- Lines 22 to 36 of 42_compensation R107: the pressure with any other divisor. -/
theorem compP_of_nonzero_divisor {tFine p1 p2 p3 : Int}
    (h : f64Value (presDivisor (presV1 tFine) p1 p2 p3) ≠ some 0) (P p4 p5 p6 p7 p8 p9 : Int) :
    compP P tFine p1 p2 p3 p4 p5 p6 p7 p8 p9 =
      presResult P (presV2 (presV1 tFine) p4 p5 p6) (presDivisor (presV1 tFine) p1 p2 p3) p7 p8 p9 :=
  if_neg fun hzero => h ((isZero_iff _).mp hzero)

/-- Settles O35: the test of line 21 is `isZero`, which holds of the two zeros alone. -/
theorem zeroDivisorGivesZeroPressure : Obligations.ZeroDivisorGivesZeroPressure :=
  fun P _ _ _ _ p4 p5 p6 p7 p8 p9 =>
    ⟨fun h => compP_of_zero_divisor h P p4 p5 p6 p7 p8 p9, fun h => compP_of_nonzero_divisor h P p4 p5 p6 p7 p8 p9⟩

end Sys2Proof.Machine

/-! ## Powers of two that bound a result (42_compensation R109)

Each operation on bounded numbers gives a bounded, hence finite, number. The bounds are coarser than those of R109: a
rounding is allowed to double the number, which over the whole listing still ends far below `2^1023`. -/

namespace Sys2Proof.Machine

/-- The pattern is a number of magnitude at most `2^n`. -/
def Within (n : Nat) (x : F64) : Prop := ∃ v, f64Value x = some v ∧ |v| ≤ 2 ^ n

theorem Within.finite {n : Nat} {x : F64} (h : Within n x) : F64Finite x :=
  have ⟨_, hv, _⟩ := h
  (f64Finite_iff x).mpr (finite_of_f64Value hv)

theorem Within.abs_le {n : Nat} {x : F64} {v : ℚ} (h : Within n x) (hv : f64Value x = some v) : |v| ≤ 2 ^ n := by
  obtain ⟨w, hw, hle⟩ := h
  rwa [Option.some.inj (hv.symm.trans hw)]

theorem lt_of_le_two_pow {n : Nat} {x : ℚ} (hx : |x| ≤ 2 ^ n) (hn : n < 1023) : |x| < 2 ^ 1023 :=
  hx.trans_lt (pow_lt_pow_right₀ one_lt_two hn)

theorem abs_add_le_two_pow {m n : Nat} {x y : ℚ} (hx : |x| ≤ 2 ^ m) (hy : |y| ≤ 2 ^ n) :
    |x + y| ≤ 2 ^ (max m n + 1) := by
  have hm : (2 : ℚ) ^ m ≤ 2 ^ max m n := pow_le_pow_right₀ one_le_two (le_max_left m n)
  have hn : (2 : ℚ) ^ n ≤ 2 ^ max m n := pow_le_pow_right₀ one_le_two (le_max_right m n)
  calc |x + y| ≤ |x| + |y| := abs_add_le x y
    _ ≤ 2 ^ (max m n + 1) := by rw [pow_succ]; linarith

theorem abs_mul_le_two_pow {m n : Nat} {x y : ℚ} (hx : |x| ≤ 2 ^ m) (hy : |y| ≤ 2 ^ n) : |x * y| ≤ 2 ^ (m + n) := by
  rw [abs_mul, pow_add]
  exact mul_le_mul hx hy (abs_nonneg y) (by positivity)

/-- Rounding costs at most one power of two. -/
theorem within_of_roundsOnce {n : Nat} {x : ℚ} {r : F64} (hx : |x| ≤ 2 ^ n) (hr : RoundsOnce x r) :
    Within (n + 1) r := by
  obtain ⟨v, hv, hle⟩ := roundedFrom_abs_le hr.2
  refine ⟨v, hv, hle.trans ?_⟩
  rw [pow_succ']
  linarith

theorem intToF_within {n : Nat} {z : Int} (hz : z.natAbs ≤ 2 ^ n) (hn : n < 53) : Within n (intToF z) := by
  refine ⟨z, f64Value_intToF (hz.trans_lt (Nat.pow_lt_pow_right one_lt_two hn)), ?_⟩
  rw [← Int.cast_abs, ← Nat.cast_natAbs]
  exact_mod_cast hz

section
variable {m n : Nat} {x y : F64}

theorem fadd_within (hx : Within m x) (hy : Within n y) (h : max m n < 1022) : Within (max m n + 2) (fadd x y) := by
  obtain ⟨vx, hvx, hx⟩ := hx
  obtain ⟨vy, hvy, hy⟩ := hy
  have hsum := abs_add_le_two_pow hx hy
  exact within_of_roundsOnce hsum (fadd_roundsOnce hvx hvy (lt_of_le_two_pow hsum (by omega)))

theorem fneg_within (hx : Within n x) : Within n (fneg x) := by
  obtain ⟨v, hv, hx⟩ := hx
  exact ⟨-v, f64Value_fneg hv, by rwa [abs_neg]⟩

theorem fsub_within (hx : Within m x) (hy : Within n y) (h : max m n < 1022) : Within (max m n + 2) (fsub x y) :=
  fadd_within hx (fneg_within hy) h

theorem fmul_within (hx : Within m x) (hy : Within n y) (h : m + n < 1023) : Within (m + n + 1) (fmul x y) := by
  obtain ⟨vx, hvx, hx⟩ := hx
  obtain ⟨vy, hvy, hy⟩ := hy
  have hprod := abs_mul_le_two_pow hx hy
  exact within_of_roundsOnce hprod (fmul_roundsOnce hvx hvy (lt_of_le_two_pow hprod h))

/-- Division by a number of magnitude at least `2^-m`. -/
theorem fdiv_within {w : ℚ} (hx : Within n x) (hy : f64Value y = some w) (hw : 1 ≤ 2 ^ m * |w|) (h : n + m < 1023) :
    Within (n + m + 1) (fdiv x y) := by
  obtain ⟨v, hv, hx⟩ := hx
  have hw0 : w ≠ 0 := by
    rintro rfl
    norm_num at hw
  have hquot : |v / w| ≤ 2 ^ (n + m) := by
    rw [abs_div, div_le_iff₀ (abs_pos.mpr hw0)]
    calc |v| ≤ 2 ^ n * 1 := by rwa [mul_one]
      _ ≤ 2 ^ n * (2 ^ m * |w|) := mul_le_mul_of_nonneg_left hw (by positivity)
      _ = 2 ^ (n + m) * |w| := by rw [pow_add, mul_assoc]
  exact within_of_roundsOnce hquot (fdiv_roundsOnce hv hy hw0 (lt_of_le_two_pow hquot h))

/-- Division by a positive integer constant. -/
theorem fdiv_intToF_within {k : Int} (hx : Within n x) (hk : 1 ≤ k ∧ k < 2 ^ 53) (h : n < 1023) :
    Within (n + 1) (fdiv x (intToF k)) := by
  refine fdiv_within (m := 0) hx (f64Value_intToF (by omega)) ?_ h
  have hk1 : (1 : ℚ) ≤ k := by exact_mod_cast hk.1
  rwa [pow_zero, one_mul, abs_of_pos (by linarith)]

end

end Sys2Proof.Machine

/-! ## How near to zero the divisor of the pressure can be (42_compensation R109)

The bracket `1.0 + x14` of line 19 is a zero or at least `2^-53` in magnitude: a binary64 number near `-1` is a multiple
of `2^-53`. Neither the rounding nor the factor `P1` of line 20, an integer, brings it nearer to zero. -/

namespace Sys2Proof.Machine

/-- Zero, or of magnitude at least `2^-53`. -/
def Apart (x : ℚ) : Prop := x = 0 ∨ 1 ≤ 2 ^ 53 * |x|

theorem apart_mul_intCast {x : ℚ} (hx : Apart x) (k : Int) : Apart (x * k) := by
  rcases eq_or_ne k 0 with rfl | hk
  · exact .inl (by simp)
  rcases hx with rfl | hx
  · exact .inl (zero_mul _)
  · have hk1 : (1 : ℚ) ≤ |(k : ℚ)| := by exact_mod_cast Int.one_le_abs hk
    rw [Apart, abs_mul, ← mul_assoc]
    exact .inr (one_le_mul_of_one_le_of_one_le hx hk1)

/-- A binary64 number is a multiple of `2^-53` or less than `1/2` in magnitude; either way its sum with 1 is apart. -/
theorem apart_one_add {x : F64} {v : ℚ} (hx : f64Value x = some v) : Apart (1 + v) := by
  obtain ⟨neg, M, -, rfl⟩ := f64Value_eq_some hx
  rcases magValue_grid M (-53) (by decide) with ⟨k, hk⟩ | ⟨-, hsmall⟩
  · have hmultiple : 1 + signedRat neg (magValue M) = 2 ^ (-53 : Int) * ((2 ^ 53 + signedInt neg k : Int) : ℚ) := by
      rw [hk, ← signedInt_mul, Int.cast_add, mul_add, mul_comm (2 ^ (-53 : Int)) (signedInt neg k : ℚ)]
      norm_num
    rw [hmultiple]
    exact apart_mul_intCast (.inr (by norm_num)) _
  · have hhalf : |signedRat neg (magValue M)| ≤ 1 / 2 := by
      rw [signedRat_abs, abs_of_nonneg (magValue_nonneg M)]
      exact hsmall.trans (by norm_num)
    have hge := (abs_le.mp hhalf).1
    right
    rw [abs_of_nonneg (by linarith)]
    linarith

/-- Rounding never passes a binary64 number on the way to zero. -/
theorem roundedFrom_abs_ge {x w : ℚ} {r y : F64} (h : RoundedFrom x r) (hy : f64Value y = some w) (hw : w ≤ |x|) :
    ∃ v, f64Value r = some v ∧ w ≤ |v| := by
  obtain ⟨v, hv, hnear⟩ := h
  refine ⟨v, hv, ?_⟩
  rcases le_total 0 x with hx | hx
  · rw [abs_of_nonneg hx] at hw
    have hle := (hnear y w hy).1
    rw [abs_sub_comm w, abs_of_nonneg (sub_nonneg.mpr hw)] at hle
    linarith [neg_abs_le (v - x), le_abs_self v]
  · rw [abs_of_nonpos hx] at hw
    have hle := (hnear _ _ (f64Value_fneg hy)).1
    rw [abs_of_nonneg (a := -w - x) (by linarith)] at hle
    linarith [le_abs_self (v - x), neg_abs_le v]

theorem f64Value_zero : f64Value 0#64 = some 0 := (isZero_iff 0#64).mp (by decide)

theorem roundedFrom_apart {x : ℚ} {r : F64} (h : RoundedFrom x r) (hx : Apart x) :
    ∃ v, f64Value r = some v ∧ Apart v := by
  rcases hx with rfl | hx
  · exact ⟨0, roundedFrom_exact h f64Value_zero, .inl rfl⟩
  · have hunit : f64Value 0x3CA0000000000000 = some (1 / 2 ^ 53) := by decide +kernel
    obtain ⟨v, hv, hle⟩ := roundedFrom_abs_ge h hunit (by linarith)
    exact ⟨v, hv, .inr (by linarith)⟩

/-- Line 19 of 42_compensation R107, the bracket `1.0 + x14`. -/
theorem fadd_one_apart {n : Nat} {x : F64} (hx : Within n x) (hn : n < 1022) :
    ∃ b, f64Value (fadd (intToF 1) x) = some b ∧ |b| ≤ 2 ^ (n + 2) ∧ Apart b := by
  obtain ⟨v, hv, hle⟩ := hx
  have h1 : f64Value (intToF 1) = some 1 := f64Value_intToF (by decide)
  have hsum : |1 + v| ≤ 2 ^ (n + 1) := by simpa using abs_add_le_two_pow (m := 0) (x := 1) (by norm_num) hle
  have hround := fadd_roundsOnce h1 hv (lt_of_le_two_pow hsum (by omega))
  obtain ⟨b, hb, hapart⟩ := roundedFrom_apart hround.2 (apart_one_add hv)
  exact ⟨b, hb, (within_of_roundsOnce hsum hround).abs_le hb, hapart⟩

end Sys2Proof.Machine

/-! ## The engine on every content of its registers (42_compensation R106, R109; 60_exceptions R146) -/

namespace Sys2Proof.Machine

/-! ### The inputs -/

theorem coef_bounds (c : Coef) : -65536 ≤ c.toInt ∧ c.toInt ≤ 65536 := by
  have hlo : -2 ^ 16 ≤ c.toInt := c.le_toInt
  have hhi : c.toInt < 2 ^ 16 := c.toInt_lt
  omega

theorem f64Value_coef (c : Coef) : f64Value (intToF c.toInt) = some (c.toInt : ℚ) := by
  have hc := coef_bounds c
  exact f64Value_intToF (by omega)

theorem coef_within (c : Coef) : Within 16 (intToF c.toInt) := by
  have hc := coef_bounds c
  exact intToF_within (by omega) (by decide)

/-- `t_fine` from its factors `a` and `b` (42_compensation R101). -/
theorem tFine_terms_natAbs_le {a b d2 d3 : Int} (ha : -2 ^ 18 ≤ a ∧ a ≤ 2 ^ 18) (hb : -2 ^ 17 ≤ b ∧ b ≤ 2 ^ 17)
    (hd2 : -65536 ≤ d2 ∧ d2 ≤ 65536) (hd3 : -65536 ≤ d3 ∧ d3 ≤ 65536) :
    (a * d2 / 2048 + b * b / 4096 * d3 / 16384).natAbs ≤ 2 ^ 25 := by
  have hm1 := mul_bounds (by decide) (by decide) ha hd2
  have hsq := mul_bounds (by decide) (by decide) hb hb
  have hsh : -2 ^ 22 ≤ b * b / 4096 ∧ b * b / 4096 ≤ 2 ^ 22 := by omega
  have hm2 := mul_bounds (by decide) (by decide) hsh hd3
  omega

theorem tFineOf_natAbs_le (T : Raw20) (d1 d2 d3 : Coef) :
    (tFineOf T.toNat d1.toInt d2.toInt d3.toInt).natAbs ≤ 2 ^ 25 := by
  have hT := T.isLt
  have hd1 := coef_bounds d1
  rw [fineTemperatureFormula]
  exact tFine_terms_natAbs_le (by omega) (by omega) (coef_bounds d2) (coef_bounds d3)

/-! ### The lines of the listing -/

theorem tempOf_within {tFine : Int} (h : tFine.natAbs ≤ 2 ^ 25) : Within 21 (tempOf tFine) := by
  have hc : (centiDegrees tFine).natAbs ≤ 2 ^ 20 := by
    have hfloor : centiDegrees tFine = (tFine * 5 + 128) / 256 := rfl
    omega
  exact fdiv_intToF_within (intToF_within hc (by decide)) (by decide) (by decide)

theorem presV1_within {tFine : Int} (h : tFine.natAbs ≤ 2 ^ 25) : Within 28 (presV1 tFine) := by
  have hx1 := fdiv_intToF_within (k := 2) (intToF_within h (by decide)) (by decide) (by decide)
  exact fsub_within (n := 16) hx1 (intToF_within (by decide) (by decide)) (by decide)

theorem presV2_within {v1 : F64} (h : Within 28 v1) (p4 p5 p6 : Coef) :
    Within 80 (presV2 v1 p4.toInt p5.toInt p6.toInt) := by
  have hx3 := fmul_within (fmul_within h h (by decide)) (coef_within p6) (by decide)
  have hx4 := fdiv_intToF_within (k := 32768) hx3 (by decide) (by decide)
  have hx5 := fmul_within h (coef_within p5) (by decide)
  have hx6 := fmul_within hx5 (intToF_within (n := 1) (z := 2) (by decide) (by decide)) (by decide)
  have hx7 := fdiv_intToF_within (k := 4) (fadd_within hx4 hx6 (by decide)) (by decide) (by decide)
  have hx8 := fmul_within (coef_within p4) (intToF_within (n := 16) (z := 65536) (by decide) (by decide)) (by decide)
  exact fadd_within hx7 hx8 (by decide)

/-- The divisor is the bracket times `p1`, rounded. -/
theorem presDivisor_rounds {v1 : F64} (h : Within 28 v1) (p2 p3 : Coef) :
    ∃ b, Apart b ∧ ∀ p1 : Coef, RoundedFrom (b * p1.toInt) (presDivisor v1 p1.toInt p2.toInt p3.toInt) := by
  have hx10 := fmul_within (fmul_within (coef_within p3) h (by decide)) h (by decide)
  have hx11 := fdiv_intToF_within (k := 524288) hx10 (by decide) (by decide)
  have hx12 := fmul_within (coef_within p2) h (by decide)
  have hv1b := fdiv_intToF_within (k := 524288) (fadd_within hx11 hx12 (by decide)) (by decide) (by decide)
  have hx14 := fdiv_intToF_within (k := 32768) hv1b (by decide) (by decide)
  obtain ⟨b, hb, hle, hapart⟩ := fadd_one_apart hx14 (by decide)
  refine ⟨b, hapart, fun p1 => ?_⟩
  have hp1 := f64Value_coef p1
  have hprod := abs_mul_le_two_pow hle ((coef_within p1).abs_le hp1)
  exact (fmul_roundsOnce hb hp1 (lt_of_le_two_pow hprod (by decide))).2

theorem presDivisor_apart {v1 : F64} (h : Within 28 v1) (p1 p2 p3 : Coef) :
    ∃ v, f64Value (presDivisor v1 p1.toInt p2.toInt p3.toInt) = some v ∧ Apart v := by
  obtain ⟨b, hb, hround⟩ := presDivisor_rounds h p2 p3
  exact roundedFrom_apart (hround p1) (apart_mul_intCast hb p1.toInt)

/-- With `p1 = 0` the divisor is a zero (42_compensation R106). -/
theorem presDivisor_p1_zero {v1 : F64} (h : Within 28 v1) (p2 p3 : Coef) :
    f64Value (presDivisor v1 (0 : Coef).toInt p2.toInt p3.toInt) = some 0 := by
  obtain ⟨b, -, hround⟩ := presDivisor_rounds h p2 p3
  exact roundedFrom_exact (by simpa using hround 0) f64Value_zero

theorem presResult_within {v2 v1c : F64} {w : ℚ} (hv2 : Within 80 v2) (hv1c : f64Value v1c = some w)
    (hw : 1 ≤ 2 ^ 53 * |w|) (P : Raw20) (p7 p8 p9 : Coef) :
    Within 329 (presResult P.toNat v2 v1c p7.toInt p8.toInt p9.toInt) := by
  have hP : Within 20 (intToF P.toNat) := intToF_within P.isLt.le (by decide)
  have hq0 := fsub_within (intToF_within (n := 20) (z := 1048576) (by decide) (by decide)) hP (by decide)
  have hx16 := fdiv_intToF_within (k := 4096) hv2 (by decide) (by decide)
  have hx17 := fsub_within hq0 hx16 (by decide)
  have hx18 := fmul_within hx17 (intToF_within (n := 13) (z := 6250) (by decide) (by decide)) (by decide)
  have hq := fdiv_within hx18 hv1c hw (by decide)
  have hx20 := fmul_within (fmul_within (coef_within p9) hq (by decide)) hq (by decide)
  have hw1 := fdiv_intToF_within (k := 2147483648) hx20 (by decide) (by decide)
  have hx21 := fmul_within hq (coef_within p8) (by decide)
  have hw2 := fdiv_intToF_within (k := 32768) hx21 (by decide) (by decide)
  have hx23 := fadd_within (fadd_within hw1 hw2 (by decide)) (coef_within p7) (by decide)
  have hx24 := fdiv_intToF_within (k := 16) hx23 (by decide) (by decide)
  exact fdiv_intToF_within (fadd_within hq hx24 (by decide)) (by decide) (by decide)

/-! ### The results -/

theorem compP_finite {tFine : Int} (h : tFine.natAbs ≤ 2 ^ 25) (P : Raw20) (p1 p2 p3 p4 p5 p6 p7 p8 p9 : Coef) :
    F64Finite (compP P.toNat tFine p1.toInt p2.toInt p3.toInt p4.toInt p5.toInt p6.toInt p7.toInt p8.toInt
      p9.toInt) := by
  have hv1 := presV1_within h
  obtain ⟨v, hv, hzero | haway⟩ := presDivisor_apart hv1 p1 p2 p3
  · rw [compP_of_zero_divisor (hzero ▸ hv)]
    decide
  · have hne : v ≠ 0 := by
      rintro rfl
      norm_num at haway
    rw [compP_of_nonzero_divisor (by simpa [hv] using hne)]
    exact (presResult_within (presV2_within hv1 p4 p5 p6) hv haway P p7 p8 p9).finite

/-- Settles O37: every line of the engine is bounded, the quotient of line 26 because its divisor keeps away from 0. -/
theorem engineResultsFinite : Obligations.EngineResultsFinite := fun T P t =>
  have ht := tFineOf_natAbs_le T t.d1 t.d2 t.d3
  ⟨(tempOf_within ht).finite, compP_finite ht P t.p1 t.p2 t.p3 t.p4 t.p5 t.p6 t.p7 t.p8 t.p9⟩

theorem compensate_p1_zero (T P : Raw20) {t : TrimTable} (h : t.p1 = 0) : (compensate T P t).2 = 0#64 := by
  have hv1 := presV1_within (tFineOf_natAbs_le T t.d1 t.d2 t.d3)
  rw [compensate_eq, h]
  exact compP_of_zero_divisor (presDivisor_p1_zero hv1 t.p2 t.p3) ..

/-- Settles O36: UPDATE caches and answers what the engine returns, which with `p1 = 0` is the pressure `+0.0`. -/
theorem updateWithP1ZeroAnswersZeroPressure : Obligations.UpdateWithP1ZeroAnswersZeroPressure := by
  intro s b hready hp1 hwrite hread
  have hpress := compensate_p1_zero (assemble b).rawT (assemble b).rawP hp1
  simp only [exec_update_eq, hready, hwrite, hread, hpress, ne_eq, not_true_eq_false, Bool.true_eq_false, if_false]
  exact ⟨_, _, rfl, rfl, rfl, rfl, rfl⟩

end Sys2Proof.Machine

/-! ## The driver (43_driver R120 to R131)

Each command of the sequencer has one equation for each way it can end; the statements on single runs are these
equations. The statements on every command go by what a command can do, and by the one rule of UNINIT: there every
command but INIT is refused. -/

namespace Sys2Proof.Machine

/-! ### INIT (43_driver R121) -/

section
variable {s : State} (hs : s.drv = .uninit)
include hs

theorem exec_init_of_first_failed (hid : readResult 2 (answerAt s 0) = none) :
    exec .init s = .next (respond .busError 0 0 (onBus 1 [.read 0xD0 2 none] s)) := by
  rw [exec_init_eq, if_neg (not_not.mpr hs), hid]

theorem exec_init_of_second_failed {id : List Byte} (hid : readResult 2 (answerAt s 0) = some id)
    (hblk : readResult 24 (answerAt s 1) = none) :
    exec .init s = .next
      (respond .busError 0 0 (onBus 2 [.read 0xD0 2 (some id), .read 0x88 24 none] s)) := by
  rw [exec_init_eq, if_neg (not_not.mpr hs), hid, hblk]

theorem exec_init_of_done {id blk : List Byte} (hid : readResult 2 (answerAt s 0) = some id)
    (hblk : readResult 24 (answerAt s 1) = some blk) :
    exec .init s = .next (respond .ok 0 0
      (onBus 2 [.read 0xD0 2 (some id), .read 0x88 24 (some blk)]
        { s with
          drv := .ready, trim := decodeTrim rebaseMask blk, trimValid := true, ctrlMeasSh := 0x25,
          configSh := 0x00, readingValid := false, id0 := byteAt id 0, id1 := byteAt id 1 })) := by
  rw [exec_init_eq, if_neg (not_not.mpr hs), hid, hblk]

end

/-- Settles O38: INIT's equation where both reads complete. -/
theorem initLoadsTableAndDefaults : Obligations.InitLoadsTableAndDefaults := fun _ _ _ hs hid hblk =>
  exec_init_of_done hs hid hblk

/-- Settles O39: INIT's equations where its first and where its second read fails. -/
theorem failedInitChangesNoRegister : Obligations.FailedInitChangesNoRegister := fun _ hs =>
  ⟨exec_init_of_first_failed hs, fun _ => exec_init_of_second_failed hs⟩

/-! ### UPDATE (43_driver R122) -/

theorem exec_update_of_not_ready {s : State} (hs : s.drv ≠ .ready) :
    exec .update s = .next (respond .stateError 0 0 s) := by
  rw [exec_update_eq, if_pos hs]

section
variable {s : State} (hs : s.drv = .ready)
include hs

theorem exec_update_of_write_failed (hwrite : writeDone (answerAt s 0) = false) :
    exec .update s = .next (respond .busError 0 0 (onBus 1 [.write 0xF4 s.ctrlMeasSh false] s)) := by
  rw [exec_update_eq, if_neg (not_not.mpr hs), if_pos hwrite]

theorem exec_update_of_read_failed (hwrite : writeDone (answerAt s 0) = true)
    (hread : readResult 8 (answerAt s 1) = none) :
    exec .update s = .next (respond .busError 0 0
      (onBus 2 [.write 0xF4 s.ctrlMeasSh true, .wait Config.settleDelay, .read 0xF7 8 none] s)) := by
  rw [exec_update_eq, if_neg (not_not.mpr hs), if_neg (ne_false_of_eq_true hwrite), hread]

theorem exec_update_of_done {b : List Byte} (hwrite : writeDone (answerAt s 0) = true)
    (hread : readResult 8 (answerAt s 1) = some b) :
    exec .update s = .next (respond .ok (compensate (assemble b).rawT (assemble b).rawP s.trim).1
      (compensate (assemble b).rawT (assemble b).rawP s.trim).2
      (onBus 2 [.write 0xF4 s.ctrlMeasSh true, .wait Config.settleDelay, .read 0xF7 8 (some b)]
        { s with
          drv := .ready
          readingT := (compensate (assemble b).rawT (assemble b).rawP s.trim).1
          readingP := (compensate (assemble b).rawT (assemble b).rawP s.trim).2
          readingValid := true })) := by
  rw [exec_update_eq, if_neg (not_not.mpr hs), if_neg (ne_false_of_eq_true hwrite), hread]

end

/-- Settles O40: UPDATE's equation where both transactions complete, with the engine's pair written out. -/
theorem updateCachesAndAnswersReading : Obligations.UpdateCachesAndAnswersReading := fun _ _ hs hwrite hread =>
  ⟨compensate_eq .., exec_update_of_done hs hwrite hread⟩

/-- Settles O41: UPDATE's equations where its write and where its read fails. -/
theorem failedUpdateKeepsReading : Obligations.FailedUpdateKeepsReading := fun _ hs =>
  ⟨exec_update_of_write_failed hs, exec_update_of_read_failed hs⟩

/-! ### The raw codes (43_driver R123, R124) -/

/-- A byte put `k` places up stands for `2^k` times its number where the width holds it. -/
theorem toNat_setWidth_shiftLeft (b : Byte) {w k : Nat} (hw : 8 + k ≤ w) :
    (b.setWidth w <<< k).toNat = 2 ^ k * b.toNat := by
  have hle : 8 ≤ w := by omega
  have hfits : b.toNat * 2 ^ k < 2 ^ w :=
    calc b.toNat * 2 ^ k
      _ < 2 ^ 8 * 2 ^ k := Nat.mul_lt_mul_of_pos_right b.isLt (by positivity)
      _ = 2 ^ (8 + k) := (pow_add ..).symm
      _ ≤ 2 ^ w := Nat.pow_le_pow_right (by decide) hw
  rw [BitVec.toNat_shiftLeft, BitVec.toNat_setWidth_of_le hle, Nat.shiftLeft_eq, Nat.mod_eq_of_lt hfits, Nat.mul_comm]

/-- Bits that do not overlap add up. -/
theorem toNat_or_of_lt {w k m : Nat} {x y : BitVec w} (hx : x.toNat = 2 ^ k * m) (hy : y.toNat < 2 ^ k) :
    (x ||| y).toNat = 2 ^ k * m + y.toNat := by
  rw [BitVec.toNat_or, hx, Nat.two_pow_add_eq_or_of_lt hy]

/-- Two bytes, the high one first, in a word that holds them. -/
theorem toNat_bytePair (hi lo : Byte) {w : Nat} (hw : 16 ≤ w) :
    (hi.setWidth w <<< 8 ||| lo.setWidth w).toNat = 256 * hi.toNat + lo.toNat := by
  have hlo : (lo.setWidth w).toNat = lo.toNat := BitVec.toNat_setWidth_of_le (by omega)
  rw [toNat_or_of_lt (toNat_setWidth_shiftLeft hi hw) (hlo ▸ lo.isLt), hlo]
  rfl

/-- The three bytes of a raw code do not overlap (20_memory R36). -/
theorem raw20_toNat (hi mid lo : Byte) :
    (raw20 hi mid lo).toNat = 4096 * hi.toNat + 16 * mid.toNat + lo.toNat / 16 := by
  have hmid : (mid.setWidth 20 <<< 4).toNat = 2 ^ 4 * mid.toNat := toNat_setWidth_shiftLeft mid (by decide)
  have hlo : ((lo >>> 4).setWidth 20).toNat = lo.toNat / 16 := by
    rw [BitVec.toNat_setWidth_of_le (by decide), BitVec.toNat_ushiftRight, Nat.shiftRight_eq_div_pow]
  have hupper : (hi.setWidth 20 <<< 12 ||| mid.setWidth 20 <<< 4).toNat = 2 ^ 4 * (256 * hi.toNat + mid.toNat) := by
    rw [toNat_or_of_lt (toNat_setWidth_shiftLeft hi (by decide)) (by omega), hmid]
    ring
  rw [raw20, toNat_or_of_lt hupper (by omega), hlo]
  ring

/-- Settles O42: a raw code is the sum of its bytes at their places. -/
theorem rawCodesOfDataBlock : Obligations.RawCodesOfDataBlock := fun _ _ _ _ _ _ b6 b7 =>
  ⟨raw20_toNat .., raw20_toNat .., toNat_bytePair b6 b7 le_rfl⟩

/-- `RAW_T` and `RAW_P` are made of the first six bytes, so the engine returns the same pair whatever the humidity bytes
are (43_driver R124). -/
theorem compensate_humidity (b0 b1 b2 b3 b4 b5 b6 b7 b6' b7' : Byte) (c : TrimTable) :
    compensate (assemble [b0, b1, b2, b3, b4, b5, b6', b7']).rawT
        (assemble [b0, b1, b2, b3, b4, b5, b6', b7']).rawP c =
      compensate (assemble [b0, b1, b2, b3, b4, b5, b6, b7]).rawT
        (assemble [b0, b1, b2, b3, b4, b5, b6, b7]).rawP c := rfl

/-- The state without the bus: neither the events so far nor the answers to come. -/
def offBus (s : State) : State := { s with script := [], trace := [] }

/-- States that agree off the bus agree in the registers, BUSY, the response and the counts. -/
theorem agree_of_offBus {t t' : State} (h : offBus t' = offBus t) :
    t'.rsp = t.rsp ∧ SameRegisters t t' ∧ t'.busy = t.busy ∧ t'.cmdIndex = t.cmdIndex ∧ t'.busCount = t.busCount := by
  simp only [offBus, State.mk.injEq] at h
  simp [SameRegisters, h]

/-- Settles O43: the runs are refused alike or fail alike at the write, or else they cache and answer the same pair. -/
theorem humidityBytesInfluenceNothing : Obligations.HumidityBytesInfluenceNothing := by
  intro s t t' a b0 b1 b2 b3 b4 b5 b6 b7 b6' b7' rest h h'
  refine agree_of_offBus ?_
  by_cases hs : s.drv = .ready
  · cases a with
    | busError =>
      cases h.symm.trans (exec_update_of_write_failed hs rfl)
      cases h'.symm.trans (exec_update_of_write_failed hs rfl)
      rfl
    | complete =>
      -- `by exact` waits until `h` has said which state it is: `s` with its script replaced.
      cases h.symm.trans
        (exec_update_of_done (by exact hs) rfl (readResult_exact [b0, b1, b2, b3, b4, b5, b6, b7]))
      cases h'.symm.trans
        (exec_update_of_done (by exact hs) rfl (readResult_exact [b0, b1, b2, b3, b4, b5, b6', b7']))
      simp only [compensate_humidity b0 b1 b2 b3 b4 b5 b6 b7 b6' b7']
      rfl
  · cases h.symm.trans (exec_update_of_not_ready hs)
    cases h'.symm.trans (exec_update_of_not_ready hs)
    rfl

/-! ### RESET, the accessors and GET_ID (43_driver R125 to R129) -/

/-- RESET in READY makes its write, and answers whether it completed (43_driver R125). -/
theorem exec_reset_of_ready {s : State} {done : Bool} (hs : s.drv = .ready)
    (hdone : writeDone (answerAt s 0) = done) :
    exec .reset s = .next
      (respond (if done then .ok else .busError) 0 0 (onBus 1 [.write 0xE0 0xB6 done] s)) := by
  rw [exec_reset_eq, if_neg (not_not.mpr hs), hdone]

/-- Settles O44: RESET's equation for both answers. -/
theorem resetCommandWritesResetWord : Obligations.ResetCommandWritesResetWord := fun _ hs =>
  ⟨exec_reset_of_ready hs, exec_reset_of_ready hs⟩

/-- An accessor with a cached reading answers it (43_driver R126, R127). -/
theorem accessor_of_valid {s : State} (hs : s.drv ≠ .uninit) (hvalid : s.readingValid = true)
    (reading : State → F64) : accessor reading s = respond .ok (reading s) 0 s := by
  rw [accessor_eq, if_neg hs, if_neg (ne_false_of_eq_true hvalid)]

/-- Settles O45: both accessors at a cached reading. -/
theorem accessorsAnswerCachedReading : Obligations.AccessorsAnswerCachedReading := fun _ hs hvalid =>
  ⟨congrArg _ (accessor_of_valid hs hvalid State.readingT), congrArg _ (accessor_of_valid hs hvalid State.readingP)⟩

/-- The lane of GET_ID by the number it is: the two bytes do not overlap (43_driver R129). -/
theorem idLane_eq (s : State) : idLane s = BitVec.ofNat 64 (s.id0.toNat + 256 * s.id1.toNat) := by
  have hpair : (idLane s).toNat = 256 * s.id1.toNat + s.id0.toNat := by
    rw [idLane, BitVec.or_comm]
    exact toNat_bytePair s.id1 s.id0 (by decide)
  exact BitVec.eq_of_toNat_eq (by rw [hpair, BitVec.toNat_ofNat]; omega)

/-- Settles O47: GET_ID outside UNINIT answers its lane. -/
theorem getIdReturnsBothBytes : Obligations.GetIdReturnsBothBytes := fun s hs => by
  rw [exec, execGetId, if_neg hs, idLane_eq]

/-! ### Every command (43_driver R120, R131) -/

/-- In UNINIT every command but INIT is refused: with StateError (60_exceptions R143), or with IllegalCommand where the
decoder never produces it (log entry 18). -/
theorem exec_uninit {i : Instr} {s : State} (hs : s.drv = .uninit) (hi : i ≠ .init) :
    exec i s = .next (respond (if i.wf then .stateError else .illegalCommand) 0 0 s) := by
  have hready : s.drv ≠ .ready := by simp [hs]
  cases i with
  | init => exact absurd rfl hi
  | update => exact exec_update_of_not_ready hready
  | reset => exact congrArg _ (if_pos hready)
  | getCoef k =>
    obtain hk | hk := Nat.lt_or_ge k.toNat 12
    · simp [exec, execGetCoef, Instr.wf, coefIndexOk, hs, hk, Nat.not_lt.mpr (Nat.le_of_lt_succ hk), Exc.status]
    · simp [exec, execGetCoef, Instr.wf, coefIndexOk, Nat.not_lt.mpr hk, Nat.lt_of_succ_le hk, Exc.status]
  | _ => exact congrArg _ (if_pos hs)

/-- INIT in UNINIT ends OK and in READY, or in UNINIT and with an error (43_driver R120). -/
theorem exec_init_transition {s t : State} (hs : s.drv = .uninit) (hexec : exec .init s = .next t) :
    t.drv = .ready ∧ (∃ r, t.rsp = some r ∧ r.status = .ok) ∨
      t.drv = .uninit ∧ ∃ r, t.rsp = some r ∧ r.status ≠ .ok := by
  rw [exec_init_eq, if_neg (not_not.mpr hs)] at hexec
  cases hexec
  split
  · exact .inr ⟨hs, _, rfl, nofun⟩
  split
  · exact .inr ⟨hs, _, rfl, nofun⟩
  · exact .inl ⟨rfl, _, rfl, rfl⟩

/-- Settles O51: INIT's two ends, the refusals of UNINIT, and outside UNINIT no command changes the driver state. -/
theorem driverStateTransitions : Obligations.DriverStateTransitions := by
  refine fun i s t hexec => ⟨fun hs => ?_, fun hs => ?_⟩
  · by_cases hi : i = .init
    · subst hi
      exact (exec_init_transition hs hexec).imp_left fun ⟨hdrv, hok⟩ => ⟨hdrv, rfl, hok⟩
    · rw [exec_uninit hs hi] at hexec
      cases hexec
      exact .inr ⟨hs, _, rfl, by cases i.wf <;> simp⟩
  · exact (exec_keeps_trim_drv (by simp [hs]) hexec).2.trans hs

/-- Settles O53: of what a command can do, only UPDATE's completion caches a reading, and INIT's discards it. -/
theorem onlyUpdateProducesReadings : Obligations.OnlyUpdateProducesReadings := fun i s t hexec hi => by
  cases exec_cases hexec with
  | updateDone _ _ _ hupdate => exact absurd hupdate hi
  | initDone => exact ⟨rfl, rfl, nofun⟩
  | _ => exact ⟨rfl, rfl, id⟩

/-! ### The frame of the sequencer's commands (43_driver R121, R122, R125) -/

/-- Settles O57: whichever way one of the three commands ends, it has written no other field. -/
theorem frameOfSequencer : Obligations.FrameOfSequencer := by
  refine fun s t => ⟨fun hexec => ?_, fun hexec => ?_, fun hexec => ?_⟩
  · rw [exec_update_eq] at hexec
    cases hexec
    split
    · rfl
    split
    · rfl
    split <;> rfl
  · rw [exec_reset_eq] at hexec
    cases hexec
    split <;> rfl
  · rw [exec_init_eq] at hexec
    cases hexec
    split
    · rfl
    split
    · rfl
    split <;> rfl

end Sys2Proof.Machine

/-! ## The exceptions (60_exceptions R141 to R151)

A command is refused for one of three causes, and a refusal only answers; a command with no cause to be refused runs,
and ends BUS_ERROR exactly where the last event it made on the bus failed. The order of the statuses puts these
together. -/

namespace Sys2Proof.Machine

/-! ### The three refusals (60_exceptions R142 to R144) -/

/-- Settles O48: UNINIT refuses every command but INIT, and INIT is refused outside UNINIT. -/
theorem stateErrorChangesNothing : Obligations.StateErrorChangesNothing := by
  rintro i s hwf (⟨hs, hi⟩ | ⟨hs, rfl⟩)
  · rw [exec_uninit hs hi, if_pos hwf]
  · rw [exec_init_eq, if_pos (by simp [hs])]

/-- The operand is judged before the shadow and the bus are touched (41_configuration R83). -/
theorem setter_rejected {s : State} {legal : Bool} (hs : s.drv ≠ .uninit) (hlegal : (!legal) = true)
    (store : State → State) (addr : Byte) (shadow : State → Byte) :
    setter legal store addr shadow s = respond .configurationError 0 0 s := by
  rw [setter, if_neg hs, if_pos (Bool.eq_false_of_not_eq_true' hlegal)]
  rfl

/-- Outside UNINIT a setter refuses an operand outside its legal set (60_exceptions R142). -/
theorem exec_of_setterRejects {i : Instr} {s : State} (hs : s.drv ≠ .uninit) (hi : setterRejects i = true) :
    exec i s = .next (respond .configurationError 0 0 s) := by
  cases i with
  | setMode | setOsrsT | setOsrsP | setStandby | setFilter => exact congrArg _ (setter_rejected hs hi _ _ _)
  | _ => cases hi

/-- The same refusal, where the legal set is given by a property of the operand. -/
theorem exec_of_not_legal {i : Instr} {s : State} {legal : Bool} {p : Prop} (hs : s.drv ≠ .uninit)
    (hi : setterRejects i = !legal) (hlegal : legal = true ↔ p) (hp : ¬p) :
    exec i s = .next (respond .configurationError 0 0 s) :=
  exec_of_setterRejects hs (by simpa [hi, ← hlegal] using hp)

/-- Settles O27: the refusal of the setters, by the legal sets as numbers. -/
theorem illegalSetterValueRejected : Obligations.IllegalSetterValueRejected := fun s v hs => by
  obtain ⟨hmode, hosrs, hstandby, hfilter⟩ := legalSets v
  exact ⟨exec_of_not_legal hs rfl hmode, fun hv => exec_of_not_legal hs rfl hosrs (Nat.not_le.mpr hv),
    fun hv => exec_of_not_legal hs rfl hosrs (Nat.not_le.mpr hv),
    fun hv => exec_of_not_legal hs rfl hstandby (Nat.not_le.mpr hv),
    fun hv => exec_of_not_legal hs rfl hfilter (Nat.not_le.mpr hv)⟩

/-- An accessor without a cached reading (43_driver R126, R127). -/
theorem accessor_of_invalid {s : State} (hs : s.drv ≠ .uninit) (hinvalid : s.readingValid = false)
    (reading : State → F64) : accessor reading s = respond .noValue 0 0 s := by
  rw [accessor_eq, if_neg hs, if_pos hinvalid]

/-- Outside UNINIT a value that does not exist is not answered (60_exceptions R144). -/
theorem exec_of_noValueDue {i : Instr} {s : State} (hs : s.drv ≠ .uninit) (hi : NoValueDue i s) :
    exec i s = .next (respond .noValue 0 0 s) := by
  obtain ⟨hinvalid, rfl | rfl⟩ | rfl := hi
  · exact congrArg _ (accessor_of_invalid hs hinvalid _)
  · exact congrArg _ (accessor_of_invalid hs hinvalid _)
  · exact congrArg _ (if_neg hs)

/-- Settles O46: the three commands that can lack a value. -/
theorem noValueAnswers : Obligations.NoValueAnswers := fun _ hs =>
  ⟨fun hinvalid => exec_of_noValueDue hs (.inl ⟨hinvalid, .inl rfl⟩),
    fun hinvalid => exec_of_noValueDue hs (.inl ⟨hinvalid, .inr rfl⟩), exec_of_noValueDue hs (.inr rfl)⟩

/-! ### Bus errors (60_exceptions R141) -/

@[simp] theorem failed_read (addr : Byte) (n : Nat) (result : Option (List Byte)) :
    (BusEvent.read addr n result).failed = result.isNone := rfl

@[simp] theorem failed_write (addr v : Byte) (done : Bool) : (BusEvent.write addr v done).failed = !done := rfl

@[simp] theorem failed_wait (delay : Nat) : (BusEvent.wait delay).failed = false := rfl

/-- The last of the events is a transaction that failed. -/
abbrev LastFailed (evs : List BusEvent) : Prop := ∃ ev, evs.getLast? = some ev ∧ ev.failed = true

theorem lastFailed_concat (evs : List BusEvent) (ev : BusEvent) : LastFailed (evs ++ [ev]) ↔ ev.failed = true := by
  simp [LastFailed]

/-- From `s` to `t` the command appended these events and responded, with BUS_ERROR exactly where the last of them
failed; no event before the last one failed. -/
structure Reported (s t : State) (evs : List BusEvent) (r : Response) : Prop where
  trace : t.trace = s.trace ++ evs
  rsp : t.rsp = some r
  earlier : ∀ ev ∈ evs.dropLast, ev.failed = false
  status : r.status = .busError ↔ LastFailed evs

/-- With no event before the last one failed, any failed event is the last one. -/
theorem Reported.any_failed {s t : State} {evs : List BusEvent} {r : Response} (h : Reported s t evs r) :
    evs.any BusEvent.failed = true ↔ r.status = .busError := by
  rw [h.status]
  have hearlier := h.earlier
  cases evs using List.reverseRecOn with
  | nil => simp
  | append_singleton evs ev =>
    rw [List.dropLast_concat] at hearlier
    rw [lastFailed_concat, List.any_append, List.any_eq_false.mpr fun e he => by simp [hearlier e he]]
    simp

/-- A command that makes no access does not end BUS_ERROR. -/
theorem reported_answered {s : State} {st : Status} {d0 d1 : Lane} (hst : st ≠ .busError) :
    Reported s (respond st d0 d1 s) [] ⟨st, d0, d1⟩ where
  trace := (List.append_nil _).symm
  rsp := rfl
  earlier := nofun
  status := by simp [hst]

/-- The response to events of which the last alone can have failed. -/
theorem reported_accessed {s u : State} {n : Nat} {evs : List BusEvent} {ev : BusEvent} {st : Status} {d0 d1 : Lane}
    (hu : u.trace = s.trace) (hevs : ∀ e ∈ evs, e.failed = false) (hst : st = .busError ↔ ev.failed = true) :
    Reported s (respond st d0 d1 (onBus n (evs ++ [ev]) u)) (evs ++ [ev]) ⟨st, d0, d1⟩ where
  trace := congrArg (· ++ (evs ++ [ev])) hu
  rsp := rfl
  earlier := by rwa [List.dropLast_concat]
  status := hst.trans (lastFailed_concat evs ev).symm

/-- Whatever a command does, it reports the failure of its last access and of no other. -/
theorem exec_reported {i : Instr} {s t : State} (h : exec i s = .next t) : ∃ evs r, Reported s t evs r := by
  cases exec_cases h with
  | answered st d0 _ hst => exact ⟨_, _, reported_answered hst⟩
  | initFailed evs _ _ he =>
    obtain rfl | ⟨id, rfl⟩ := he
    · exact ⟨_, _, reported_accessed (evs := []) rfl nofun (by decide)⟩
    · exact ⟨_, _, reported_accessed (evs := [_]) rfl (by simp) (by decide)⟩
  | initDone => exact ⟨_, _, reported_accessed (evs := [_]) rfl (by simp) (by simp)⟩
  | updateFailed n evs _ _ he =>
    obtain ⟨rfl, rfl⟩ | ⟨rfl, rfl⟩ := he
    · exact ⟨_, _, reported_accessed (evs := []) rfl nofun (by simp)⟩
    · exact ⟨_, _, reported_accessed (evs := [_, _]) rfl (by simp) (by decide)⟩
  | updateDone =>
    exact ⟨_, _, reported_accessed (evs := [_, _]) rfl (by simp) (by simp)⟩
  | resetWrote done | ctrlStored done | configStored done =>
    exact ⟨_, _, reported_accessed (evs := []) rfl nofun (by cases done <;> simp)⟩

/-- Settles O50: every command reports as `Reported` says. -/
theorem busErrorEndsCommand : Obligations.BusErrorEndsCommand := fun _ _ _ hexec =>
  have ⟨evs, r, h⟩ := exec_reported hexec
  ⟨evs, r, h.trace, h.rsp, h.earlier, h.status⟩

/-! ### What an error leaves (60_exceptions R148) -/

/-- Responding and the bus touch no register of 10_state R10. -/
theorem sameRegisters_respond_onBus (st : Status) (d0 d1 : Lane) (n : Nat) (evs : List BusEvent) (s : State) :
    SameRegisters s (respond st d0 d1 (onBus n evs s)) := by
  simp [SameRegisters, onBus]

theorem eq_busError_of_ne_ok {done : Bool} (h : (if done then Status.ok else .busError) ≠ .ok) :
    (if done then Status.ok else .busError) = .busError := by
  cases done with
  | true => exact absurd rfl h
  | false => rfl

/-- Settles O52: a command that ends with an error has written no register, but for a setter's shadow. -/
theorem errorsLeaveRegistersUnchanged : Obligations.ErrorsLeaveRegistersUnchanged := by
  intro i s t r hexec hr hst
  cases exec_cases hexec with
  | answered => exact .inl (by simp [SameRegisters])
  | initFailed | updateFailed | resetWrote => exact .inl (sameRegisters_respond_onBus ..)
  | initDone | updateDone =>
    cases hr
    exact absurd rfl hst
  | ctrlStored done shift width v _ hi =>
    cases hr
    have hsetter := hi.imp And.left (Or.imp And.left And.left)
    exact .inr (.inl ⟨eq_busError_of_ne_ok hst, ⟨v, hsetter⟩, sameRegisters_respond_onBus ..⟩)
  | configStored done shift width v _ hi =>
    cases hr
    have hsetter := hi.imp And.left And.left
    exact .inr (.inr ⟨eq_busError_of_ne_ok hst, ⟨v, hsetter⟩, sameRegisters_respond_onBus ..⟩)

/-! ### The order of the statuses (60_exceptions R147) -/

/-- The command was not refused: it ended OK or BUS_ERROR. -/
def Served (t : State) : Prop := ∃ r, t.rsp = some r ∧ (r.status = .ok ∨ r.status = .busError)

theorem served_ok (d0 d1 : Lane) (u : State) : Served (respond .ok d0 d1 u) := ⟨_, rfl, .inl rfl⟩

theorem served_busError (d0 d1 : Lane) (u : State) : Served (respond .busError d0 d1 u) := ⟨_, rfl, .inr rfl⟩

theorem served_write (done : Bool) (d0 d1 : Lane) (u : State) :
    Served (respond (if done then .ok else .busError) d0 d1 u) := by
  cases done with
  | true => exact served_ok ..
  | false => exact served_busError ..

theorem exec_init_served {s t : State} (hs : s.drv = .uninit) (hexec : exec .init s = .next t) : Served t := by
  rw [exec_init_eq, if_neg (not_not.mpr hs)] at hexec
  cases hexec
  split
  · exact served_busError ..
  split
  · exact served_busError ..
  · exact served_ok ..

theorem exec_update_served {s t : State} (hs : s.drv = .ready) (hexec : exec .update s = .next t) : Served t := by
  rw [exec_update_eq, if_neg (not_not.mpr hs)] at hexec
  cases hexec
  split
  · exact served_busError ..
  split
  · exact served_busError ..
  · exact served_ok ..

/-- A command that READY allows, with a legal operand and an existing value, is served. -/
theorem exec_ready_served {i : Instr} {s t : State} (hwf : i.wf = true) (hi : i ≠ .init) (hready : s.drv = .ready)
    (hlegal : setterRejects i = false) (hvalue : ¬NoValueDue i s) (hexec : exec i s = .next t) : Served t := by
  have hs : s.drv ≠ .uninit := by simp [hready]
  cases i with
  | init => exact absurd rfl hi
  | update => exact exec_update_served hready hexec
  | reset =>
    cases hexec.symm.trans (exec_reset_of_ready hready rfl)
    exact served_write ..
  | setMode | setOsrsT | setOsrsP =>
    cases hexec
    rw [setter_ctrl_legal hs rfl (Bool.eq_true_of_not_eq_false' hlegal)]
    exact served_write ..
  | setStandby | setFilter =>
    cases hexec
    rw [setter_config_legal hs rfl (Bool.eq_true_of_not_eq_false' hlegal)]
    exact served_write ..
  | getMode | getOsrsT | getOsrsP | getStandby | getFilter =>
    cases hexec
    rw [getter_eq, if_neg hs]
    exact served_ok ..
  | getTemperature | getPressure =>
    cases hexec
    rw [accessor_of_valid hs (by simpa using hvalue)]
    exact served_ok ..
  | getHumidity => exact absurd (.inr rfl) hvalue
  | getId =>
    cases hexec.symm.trans (getIdReturnsBothBytes s hs)
    exact served_ok ..
  | getCoef k =>
    cases hexec.symm.trans (exec_getCoef_eq hs (by simpa [Instr.wf, coefIndexOk, Nat.lt_succ_iff] using hwf))
    exact served_ok ..

/-- A command with no cause to be refused is served. -/
theorem exec_served {i : Instr} {s t : State} (hwf : i.wf = true) (hmeasuring : s.drv ≠ .measuring)
    (hdue : ¬StateErrorDue i s) (hlegal : setterRejects i = false) (hvalue : ¬NoValueDue i s)
    (hexec : exec i s = .next t) : Served t := by
  by_cases hi : i = .init
  · subst hi
    cases hs : s.drv with
    | uninit => exact exec_init_served hs hexec
    | ready => exact absurd (.inr ⟨hs, rfl⟩) hdue
    | measuring => exact absurd hs hmeasuring
  · cases hs : s.drv with
    | uninit => exact absurd (.inl ⟨hs, hi⟩) hdue
    | ready => exact exec_ready_served hwf hi hs hlegal hvalue hexec
    | measuring => exact absurd hs hmeasuring

theorem status_of_exec {i : Instr} {s t u : State} {r : Response} {st : Status} {d0 d1 : Lane}
    (hexec : exec i s = .next t) (hrsp : t.rsp = some r) (hresponds : exec i s = .next (respond st d0 d1 u)) :
    r.status = st := by
  cases hexec.symm.trans hresponds
  cases hrsp
  rfl

/-- Settles O49: each refusal answers its own status, and a command that is not refused reports its bus events. -/
theorem statusPriority : Obligations.StatusPriority := by
  intro i s t hwf hmeasuring hexec
  obtain ⟨evs, r, h⟩ := exec_reported hexec
  have hdrv : ¬StateErrorDue i s → i ≠ .init → s.drv ≠ .uninit := fun hdue hi hs => hdue (.inl ⟨hs, hi⟩)
  refine ⟨r, h.rsp, fun hdue => ?_, fun hdue hreject => ?_, fun hdue hvalue => ?_, fun hdue hlegal hvalue => ?_⟩
  · exact status_of_exec hexec h.rsp (stateErrorChangesNothing i s hwf hdue)
  · have hi : i ≠ .init := by
      rintro rfl
      cases hreject
    exact status_of_exec hexec h.rsp (exec_of_setterRejects (hdrv hdue hi) hreject)
  · have hi : i ≠ .init := by
      rintro rfl
      simp [NoValueDue] at hvalue
    exact status_of_exec hexec h.rsp (exec_of_noValueDue (hdrv hdue hi) hvalue)
  · obtain ⟨r', hrsp, hserved⟩ := exec_served hwf hmeasuring hdue hlegal hvalue hexec
    obtain rfl : r = r' := Option.some.inj (h.rsp.symm.trans hrsp)
    rw [h.trace, List.drop_left]
    split
    next hfailed => exact h.any_failed.mp hfailed
    next hfailed => exact hserved.resolve_right fun hbus => hfailed (h.any_failed.mpr hbus)

/-! ### The word that is run (60_exceptions R151) -/

/-- Settles O3: the word is accepted, and running it is running the command it decodes to. -/
theorem stepRunsDecodedCommand : Obligations.StepRunsDecodedCommand := fun s w rest i hidle hhost hw => by
  rw [step_cmd hidle hhost, runWord, hw]
  rfl

end Sys2Proof.Machine

/-! ## Hardware reset (70_reset R160, R162)

Outside a command RST leaves what `hardwareReset` says. During a command the block is reset from the state in which the
word was accepted, with what the command had made of its events on the bus: the finished ones, each with its answer, and
the one in progress, cut short. -/

namespace Sys2Proof.Machine

/-! ### RST outside the step's own command (70_reset R160, R162) -/

/-- Where RST was to come during a word that BUSY holds back, the block is reset and the word stays offered (log
entry 14). -/
theorem step_cmdThenRst_busy {s : State} {w : Word16} {k : Nat} {inside : Bool} {rest : List HostInput}
    (hbusy : s.busy = true) (hhost : s.host = .cmdThenRst w k inside :: rest) :
    step s = .next (hardwareReset { s with host := .cmd w :: rest }) := by
  simp [step, portStep, hhost, hbusy]

/-- Settles O6: both steps are a hardware reset of the state with the input used up. -/
theorem hardwareResetBetweenCommands : Obligations.HardwareResetBetweenCommands :=
  ⟨fun _ _ hhost => ⟨_, step_rst hhost, by simp, rfl⟩,
    fun _ _ _ _ _ hbusy hhost => ⟨_, step_cmdThenRst_busy hbusy hhost, by simp, rfl⟩⟩

/-! ### RST during a command (70_reset R160) -/

/-- An accepted word only appends to the record of the bus; an illegal one appends nothing (20_memory R39). -/
theorem runWord_trace {w : Word16} {s t : State} (h : runWord w s = .next t) : ∃ evs, t.trace = s.trace ++ evs := by
  unfold runWord at h
  split at h
  · obtain ⟨-, evs, -, htrace, -⟩ := exec_accessed h
    exact ⟨evs, htrace⟩
  · cases h
    exact ⟨[], (List.append_nil _).symm⟩

/-- The event in progress when RST comes after the first `k`, cut short: none where RST came between two events or after
the last. -/
def cutEvents (k : Nat) (inside : Bool) (evs : List BusEvent) : List BusEvent :=
  if inside then evs[k]?.toList.map BusEvent.cutShort else []

theorem madeBefore_eq (k : Nat) (inside : Bool) (evs : List BusEvent) :
    madeBefore k inside evs = evs.take k ++ cutEvents k inside evs := by
  simp only [madeBefore, cutEvents, List.take_one, List.head?_drop]

theorem cutEvents_between {inside : Bool} (hinside : inside = false) (k : Nat) (evs : List BusEvent) :
    cutEvents k inside evs = [] := by
  simp [cutEvents, hinside]

theorem cutEvents_after_last {inside : Bool} (hinside : inside = true) {k : Nat} {evs : List BusEvent}
    (h : evs.length ≤ k) : cutEvents k inside evs = [] := by
  simp [cutEvents, hinside, List.getElem?_eq_none h]

theorem cutEvents_within {inside : Bool} (hinside : inside = true) {k : Nat} {evs : List BusEvent} {ev : BusEvent}
    (h : evs[k]? = some ev) : cutEvents k inside evs = [ev.cutShort] := by
  simp [cutEvents, hinside, h]

/-- Abandoning a command that would have made these events: the first `k` took their answers, the one in progress took
none. -/
theorem abandon_of_trace {k : Nat} {inside : Bool} {before after : State} {evs : List BusEvent}
    (h : after.trace = before.trace ++ evs) :
    abandon k inside before after =
      hardwareReset (onBus ((evs.take k).filter BusEvent.isTransaction).length
        (evs.take k ++ cutEvents k inside evs) before) := by
  have hmade : after.trace.drop before.trace.length = evs := by rw [h, List.drop_left]
  rw [abandon_eq, hmade, madeBefore_answered, madeBefore_eq]

/-- A word during which RST comes, by the events it would have made. -/
theorem runWordThenReset_of_trace {w : Word16} {k : Nat} {inside : Bool} {s u : State} {evs : List BusEvent}
    (hrun : runWord w s = .next u) (htrace : u.trace = s.trace ++ evs) :
    runWordThenReset w k inside s =
      .next (hardwareReset (onBus ((evs.take k).filter BusEvent.isTransaction).length
        (evs.take k ++ cutEvents k inside evs) s)) := by
  simp only [runWordThenReset, hrun, abandon_of_trace htrace]

/-- Settles O7: the events are those the word makes when it is run to its end from the state that accepts it, and the
event cut short is the one after the first `k`. -/
theorem hardwareResetDuringCommand : Obligations.HardwareResetDuringCommand := by
  intro s w k inside rest hidle hhost
  obtain ⟨u, hrun⟩ := runWord_answers w (accept rest s)
  obtain ⟨evs, htrace⟩ := runWord_trace hrun
  have huninterrupted : step { s with host := .cmd w :: rest } = .next u :=
    (step_cmd (s := { s with host := .cmd w :: rest }) hidle rfl).trans hrun
  have hreset := (step_cmdThenRst hidle hhost).trans (runWordThenReset_of_trace hrun htrace)
  exact ⟨_, u, evs, cutEvents k inside evs, hreset, huninterrupted, htrace, (List.append_assoc ..).symm,
    fun hinside => cutEvents_between hinside k evs, fun hinside => cutEvents_after_last hinside,
    fun hinside _ _ _ => cutEvents_within hinside, fun hinside _ _ _ => cutEvents_within hinside,
    fun hinside _ => cutEvents_within hinside, by simp⟩

end Sys2Proof.Machine
